-- ==== Sys2Proof/Word.lean ====
section
/-! DEFINITION. The bit-vector types of the block (00_scope.md section 4: every value is an unsigned integer of a stated
width). -/

namespace Sys2Proof

/-- A byte: the width of a register of the block (R28). -/
abbrev Byte := BitVec 8

/-- A command word, `CMD[39:0]` (R71). -/
abbrev CmdWord := BitVec 40

/-- A result word, the latch `RES` (R77). -/
abbrev ResWord := BitVec 32

/-- An interrupt identity, the operand `id` (R73). -/
abbrev Identity := BitVec 16

/-- A bit position, 0 to 7, where 0 means "no binding" (R111). -/
abbrev BitPos := BitVec 3

end Sys2Proof
end

