-- ==== Sys2Proof/Syntax.lean ====
section
/-! DEFINITION. The five commands of the block (30_encoding.md R70, R81), one constructor for each row of
spec/opcode_table.json. The operands have the widths of the formats M, I, F and N (R72 to R75); `off` is the truth value of
D00's `gate_off` operand, 1 being true (R72). -/

namespace Sys2Proof

/-- A command with its operands (R70). -/
inductive Instr where
  /-- `GATE0 mask, off` (R131). -/
  | gate0 (mask : Byte) (off : Bool)
  /-- `GATE1 mask, off` (R132). -/
  | gate1 (mask : Byte) (off : Bool)
  /-- `GATEID id, off` (R133). -/
  | gateid (id : Identity) (off : Bool)
  /-- `SETHCLK hz` (R151). -/
  | sethclk (hz : BitVec 32)
  /-- `GETHCLK` (R155). -/
  | gethclk
deriving DecidableEq, Repr

/-- The five mnemonics (R70). -/
inductive Mnemonic where
  | GATE0 | GATE1 | GATEID | SETHCLK | GETHCLK
deriving DecidableEq, Repr

/-- The mnemonic of a command (R70). -/
def Instr.mnemonic : Instr → Mnemonic
  | .gate0 _ _ => .GATE0
  | .gate1 _ _ => .GATE1
  | .gateid _ _ => .GATEID
  | .sethclk _ => .SETHCLK
  | .gethclk => .GETHCLK

end Sys2Proof
end

