-- ==== Sys2Proof/Decode.lean ====
section
/-! DEFINITION. Decoding and encoding of command words (30_encoding.md R71 to R78). -/

namespace Sys2Proof

/-- One row of the opcode map of R76, which spec/opcode_table.json repeats. -/
structure OpcodeRow where
  mnemonic : Mnemonic
  pattern : CmdWord
  mask : CmdWord
deriving DecidableEq, Repr

/-- The opcode map of R76, copied: `match` and `mask` of each row. -/
def opcodeTable : List OpcodeRow :=
  [ ⟨.GATE0,   0x0100000000#40, 0xFFFFFFFE00#40⟩,
    ⟨.GATE1,   0x0200000000#40, 0xFFFFFFFE00#40⟩,
    ⟨.GATEID,  0x0300000000#40, 0xFFFFFE0000#40⟩,
    ⟨.SETHCLK, 0x0400000000#40, 0xFF00000000#40⟩,
    ⟨.GETHCLK, 0x0500000000#40, 0xFFFFFFFFFF#40⟩ ]

/-- "A word `w` spells the command of a row exactly when `w & mask = match`" (R76). -/
def OpcodeRow.spells (r : OpcodeRow) (w : CmdWord) : Bool := w &&& r.mask == r.pattern

/-- Why a word is `Invalid` (R78). -/
inductive InvalidWord where
  /-- Opcode `0x00` or `0x06` to `0xFF`. -/
  | unknownOpcode
  /-- A listed opcode with a non-zero reserved bit. -/
  | reservedBits
deriving DecidableEq, Repr

/-- The opcode, `CMD[39:32]` (R71). -/
def opcodeOf (w : CmdWord) : BitVec 8 := w.extractLsb' 32 8

/-- Format M without the opcode: reserved `31:9`, `off` 8, `mask` `7:0` (R72). -/
def decodeM (w : CmdWord) (mk : Byte → Bool → Instr) : Except InvalidWord Instr :=
  if w.extractLsb' 9 23 = 0#23 then .ok (mk (w.extractLsb' 0 8) (w.getLsbD 8)) else .error .reservedBits

/-- Format I without the opcode: reserved `31:17`, `off` 16, `id` `15:0` (R73). -/
def decodeI (w : CmdWord) (mk : Identity → Bool → Instr) : Except InvalidWord Instr :=
  if w.extractLsb' 17 15 = 0#15 then .ok (mk (w.extractLsb' 0 16) (w.getLsbD 16)) else .error .reservedBits

/-- Format N without the opcode: reserved `31:0` (R75). -/
def decodeN (w : CmdWord) (i : Instr) : Except InvalidWord Instr :=
  if w.extractLsb' 0 32 = 0#32 then .ok i else .error .reservedBits

/-- `Decode(w)`: one of the five commands with its operands, or `Invalid` by name (R76, R78). -/
def decode (w : CmdWord) : Except InvalidWord Instr :=
  if opcodeOf w = 0x01#8 then decodeM w .gate0
  else if opcodeOf w = 0x02#8 then decodeM w .gate1
  else if opcodeOf w = 0x03#8 then decodeI w .gateid
  else if opcodeOf w = 0x04#8 then .ok (.sethclk (w.extractLsb' 0 32))
  else if opcodeOf w = 0x05#8 then decodeN w .gethclk
  else .error .unknownOpcode

/-- Format M, most significant field first (R72). -/
def encodeM (op : BitVec 8) (mask : Byte) (off : Bool) : CmdWord :=
  op ++ 0#23 ++ BitVec.ofBool off ++ mask

/-- Format I, most significant field first (R73). -/
def encodeI (op : BitVec 8) (id : Identity) (off : Bool) : CmdWord :=
  op ++ 0#15 ++ BitVec.ofBool off ++ id

/-- Formats F and N: the opcode and a 32-bit operand field (R74, R75). -/
def encodeF (op : BitVec 8) (operand : BitVec 32) : CmdWord := op ++ operand

/-- The command word of a command (R72 to R76). -/
def encode : Instr → CmdWord
  | .gate0 mask off => encodeM 0x01#8 mask off
  | .gate1 mask off => encodeM 0x02#8 mask off
  | .gateid id off => encodeI 0x03#8 id off
  | .sethclk hz => encodeF 0x04#8 hz
  | .gethclk => encodeF 0x05#8 0#32

/-- The command that the decoder reads from a word numbered as spec/opcode_table.json numbers it. A word is 40 bits, is
presented whole and has no byte order (R71), so the table's number IS the word; bits the row does not have are 0. -/
def decodeTableWord (nbits w : Nat) : Option Instr :=
  if nbits ≤ 40 ∧ w < 2 ^ nbits then (decode (BitVec.ofNat 40 w)).toOption else none

end Sys2Proof
end

