-- ==== Sys2Proof/Config.lean ====
section
/-! DEFINITION. The configuration record `Cfg` (00_scope.md R6): everything that is fixed when a chip variant is built and
that no rule changes (10_state.md R39). The record is plain data, so a table of the lookup ROM is the list of its
bindings. -/

namespace Sys2Proof

/-- `VARIANT`: the three mutually exclusive hardware variants (R6; the tags are the spec's own). -/
inductive Variant where
  | va | vb | vc
deriving DecidableEq, Repr

/-- `HAS_WAKE` as the spec decides it: true exactly on `VC` (R6, R115). It stays a field of `Cfg` of its own. -/
def Variant.hasWake : Variant → Bool
  | .va => false
  | .vb => false
  | .vc => true

/-- One entry of a lookup table: identity `id` has bit position `bit` (R110, R111). -/
structure Binding where
  id : Identity
  bit : BitPos
deriving DecidableEq, Repr

/-- A lookup table of the ROM, a total function from identities to bit positions, as the list of its entries: an identity
without an entry has value 0 (R110). -/
abbrev Table := List Binding

/-- The configuration record (R6). `t1` is the table of the active variant (R114, R118 step 3). -/
structure Cfg where
  variant : Variant
  hasWake : Bool
  endOfIdentities : Nat
  t0 : Table
  t1 : Table
  tw : Table
  base : Nat
  offCg0 : Nat
  offCg1 : Nat
  offWake : Nat
  offPllDiv : Nat
  offCfgCtrl : Nat
  divWidth : Nat
  failCode : Int
  nCtx : Nat
deriving DecidableEq, Repr

end Sys2Proof
end

