-- ==== Sys2Proof/Machine/Resolver.lean ====
section
/-! DEFINITION. The Peripheral-to-Bit Resolver, the lookup ROM of 41_resolver.md, and the register names it selects. -/

namespace Sys2Proof

/-- The three gate registers, the values of the multiplexer select `TGT` (R20, R118). -/
inductive GateReg where
  | cg0 | cg1 | wake
deriving DecidableEq, Repr

/-- The value of a table at an identity: 0, "no binding", when the identity has no entry (R110, R111). -/
def Table.lookup (t : Table) (id : Identity) : BitPos :=
  match t with
  | [] => 0
  | e :: rest => if e.id = id then e.bit else Table.lookup rest id

/-- What `Resolve` answers when it finds one: the register and the bit position (R118). -/
structure Resolved where
  reg : GateReg
  bit : BitPos
deriving DecidableEq, Repr

/-- `Resolve(id)`: the bound first, then the three tables in order; the first non-zero value wins (R118). `none` is
`NotFound`. -/
def resolve (c : Cfg) (id : Identity) : Option Resolved :=
  if c.endOfIdentities ≤ id.toNat then none
  else if c.t0.lookup id ≠ 0 then some ⟨.cg0, c.t0.lookup id⟩
  else if c.t1.lookup id ≠ 0 then some ⟨.cg1, c.t1.lookup id⟩
  else if c.hasWake && c.tw.lookup id != 0 then some ⟨.wake, c.tw.lookup id⟩
  else none

/-- `MaskOf(b)`: the byte `1 << b` (R112). -/
def maskOf (b : BitPos) : Byte := 1#8 <<< b.toNat

end Sys2Proof
end

