-- ==== Sys2Proof/Machine/TestConfig.lean ====
section
/-! DEFINITION. The test configuration `T0cfg` of 95_test_vectors.md section 1 (00_scope.md R7): synthetic numbers of the
spec's own, a description of no chip. It is the configuration in which `State.reset` stands (notes/assumptions/3.md); every
statement that is not a test holds for every configuration, or for every well-formed one. -/

namespace Sys2Proof

/-- `T0cfg`'s table of group 0, the same on all variants: TMR0, TMR1, TMR2, PWMX_OE, UART0, UART1. -/
def T0cfg.group0 : Table :=
  [⟨16, 1⟩, ⟨17, 2⟩, ⟨18, 3⟩, ⟨47, 4⟩, ⟨20, 5⟩, ⟨21, 6⟩]

/-- `T0cfg`'s table of group 1 on each variant. -/
def T0cfg.group1 : Variant → Table
  | .va => [⟨24, 1⟩, ⟨25, 2⟩, ⟨26, 3⟩, ⟨27, 4⟩, ⟨28, 5⟩, ⟨29, 6⟩, ⟨30, 7⟩]
  | .vb => [⟨24, 1⟩, ⟨25, 2⟩, ⟨26, 3⟩, ⟨27, 4⟩, ⟨29, 5⟩, ⟨31, 6⟩, ⟨30, 7⟩]
  | .vc => [⟨24, 1⟩, ⟨25, 2⟩, ⟨32, 3⟩, ⟨33, 4⟩, ⟨34, 5⟩, ⟨35, 6⟩, ⟨36, 7⟩]

/-- `T0cfg`'s table of the wake group: ETH and ECDC on `VC`, nothing elsewhere. -/
def T0cfg.wakeGroup : Variant → Table
  | .va => []
  | .vb => []
  | .vc => [⟨38, 1⟩, ⟨30, 2⟩]

/-- `T0cfg` of a variant, with `DIV_WIDTH = 4`. -/
def t0cfg (v : Variant) : Cfg where
  variant := v
  hasWake := v.hasWake
  endOfIdentities := 48
  t0 := T0cfg.group0
  t1 := T0cfg.group1 v
  tw := T0cfg.wakeGroup v
  base := 0x40001000
  offCg0 := 0x0C
  offCg1 := 0x0D
  offWake := 0x0E
  offPllDiv := 0x08
  offCfgCtrl := 0x0A
  divWidth := 4
  failCode := -1
  nCtx := 2

end Sys2Proof
end

