-- ==== Sys2Proof/Machine/State.lean ====
section
/-! DEFINITION. The state of the machine as plain data (10_state.md), the reasons a step can stop, the inputs a step can
take, and the state after reset. -/

namespace Sys2Proof.Machine

/-- The latch `KIND`: which micro-operation sequence a command runs (R20). -/
inductive Kind where
  | gate | set | get
deriving DecidableEq, Repr

/-- `PHASE`: the state of the critical-section protocol of one frame, the block's program counter (R24). -/
inductive Phase where
  /-- no command in progress -/
  | idle
  /-- command accepted, protocol not yet started -/
  | ready
  /-- interrupts disabled -/
  | masked
  /-- register block unlocked -/
  | opened
  /-- target byte read into `TMP` -/
  | loaded
  /-- SETHCLK: divider written, source select not yet -/
  | stored1
  /-- all writes of the region done -/
  | stored
  /-- register block locked again, interrupts not yet restored -/
  | closed
  /-- GETHCLK accepted -/
  | get0
  /-- GETHCLK: divider field read -/
  | get1
deriving DecidableEq, Repr

/-- The names of the twelve latches (R20). -/
inductive Latch where
  | CMD | KIND | TGT | M | OFF | BIT | DIV | SEL | SAVED | TMP | TDIV | RES
deriving DecidableEq, Repr

/-- One context frame: its phase (R24) and its twelve latches (R20). A latch is an `Option` because the spec gives an
unwritten latch no value (R21: "reading one is a model fault"), after reset too (R38). `tdiv` has `DIV_WIDTH` bits and is
held in a byte. -/
structure Frame where
  phase : Phase
  cmd : Option CmdWord
  kind : Option Kind
  tgt : Option GateReg
  m : Option Byte
  off : Option Bool
  bit : Option BitPos
  div : Option (BitVec 5)
  sel : Option Bool
  saved : Option Bool
  tmp : Option Byte
  tdiv : Option Byte
  res : Option ResWord
deriving DecidableEq, Repr

/-- A new frame: `IDLE`, no latch values (R38, R177). -/
def Frame.fresh : Frame where
  phase := .idle
  cmd := none
  kind := none
  tgt := none
  m := none
  off := none
  bit := none
  div := none
  sel := none
  saved := none
  tmp := none
  tdiv := none
  res := none

/-- The register block (R28). The three gate registers are bytes; `WAKE` exists only when `HAS_WAKE` (R31), and `none` says
that it does not exist. `PLLDIV` and `CFGCTRL` are kept as their fields (R32 to R34); `pll_div` has `DIV_WIDTH` bits and is
held in a byte, `sel_pll = 1` is `true`. -/
structure RegBlock where
  cg0 : Byte
  cg1 : Byte
  wake : Option Byte
  pllDiv : Byte
  selPll : Bool
deriving DecidableEq, Repr

/-- The values that the spec leaves open after reset, each a `draw` (R38). -/
structure ResetDraw where
  cg0 : Byte
  cg1 : Byte
  wake : Byte
  pllDiv : Byte
  selPll : Bool
  ie : Bool
deriving DecidableEq, Repr

/-- What the outside does next (R39, R207): the model's own script of the inputs of the step relation
(notes/assumptions/2.md). -/
inductive Input where
  /-- The context of the top frame presents a command word; it waits until its frame is `IDLE` (R25, R176). -/
  | command (w : CmdWord)
  /-- The environment does nothing and the top frame performs its next micro-operation. -/
  | advance
  /-- `E_PREEMPT`, with the draw of the handler's initial `IE` (R177). -/
  | preempt (handlerIe : Bool)
  /-- `E_RETURN` (R178). -/
  | handlerEnd
  /-- A power cycle, with the draws of R38 (R190). -/
  | powerCycle (d : ResetDraw)
deriving DecidableEq, Repr

/-- A state of the machine: the register block, the two flags and the stack of context frames (10_state.md), the top frame
apart and the suspended frames below it nearest first; beside them the configuration, which no step changes (R39), and the
inputs still to come, which are the model's own field. -/
structure State where
  cfg : Cfg
  regs : RegBlock
  ie : Bool
  safe : Bool
  top : Frame
  below : List Frame
  inputs : List Input
deriving DecidableEq, Repr

/-- How the machine can stop with a fault. The block itself raises none (R170); each of these is raised only in a state that
no run reaches. -/
inductive Fault where
  /-- A micro-operation reads a latch that no micro-operation of the current command wrote (R21: "a model fault"). Raised by
  the latch reads of Machine/Protocol.lean. Safe: the spec asks for it. -/
  | unwrittenLatch (l : Latch)
  /-- An access to `WAKE` where it does not exist (R31). Raised by `regRead` and `regWrite`. Safe: the machine stops. -/
  | absentWake
  /-- Phase `OPEN` with `KIND = GET`, in which no micro-operation is enabled (R94, R96). Raised by `micro`. Safe: the machine
  stops. -/
  | noMicroOperation
  /-- A byte access at an address that is none of the five registers (R50: "No other address is accessed by any rule").
  Raised by `memRead` and `memWrite` only, which no step calls. Safe. -/
  | unmappedAddress
deriving DecidableEq, Repr

/-- How the model can refuse a step: each is a step that the spec gives no meaning. -/
inductive Refusal where
  /-- An instruction without a meaning yet. No arm of `exec` raises it. Safe. -/
  | notModelled (mnemonic : String)
  /-- A presented word is `Invalid` (R78: "An invalid word is refused"). Raised by `present`. Safe. -/
  | invalidWord (why : InvalidWord)
  /-- A command for a frame that is not `IDLE`, where `S_ACCEPT` is not enabled (R91). Raised by `accept`; no step gives one.
  Safe. -/
  | frameBusy
  /-- `SAFE = 1` when a frame performs `S_ACCEPT` (R102: "the model refuses it"). Raised by `accept`. Safe. -/
  | unlockedAtAccept
  /-- A write to the register block with `SAFE = 0` or `IE = 1` (R62 and U3: refused). Raised by the register writes. Safe. -/
  | writeOutsideProtocol
  /-- `E_PREEMPT` with `IE = 0` or a full stack, where it is not enabled (R177, R207). Raised by `preempt`. Safe. -/
  | preemptNotEnabled
  /-- `E_RETURN` from the thread context or with a command half done, where it is not enabled (R178, R207). Raised by
  `handlerReturn`. Safe. -/
  | returnNotEnabled
  /-- A raw byte access to `PLLDIV` or `CFGCTRL` (R34 and U12: refused). Raised by `memRead` and `memWrite` only, which no
  step calls. Safe. -/
  | rawEncodedAccess
deriving DecidableEq, Repr

/-- What an operation of the model answers. -/
abbrev Result (α : Type) := Host.Outcome α Fault Refusal

/-- Replace the top frame. -/
def State.setTop (s : State) (f : Frame) : State := { s with top := f }

/-- Replace the register block. -/
def State.setRegs (s : State) (r : RegBlock) : State := { s with regs := r }

/-- Replace the flag `IE`. -/
def State.setIe (s : State) (b : Bool) : State := { s with ie := b }

/-- Replace the flag `SAFE`. -/
def State.setSafe (s : State) (b : Bool) : State := { s with safe := b }

/-- Replace the inputs still to come. -/
def State.setInputs (s : State) (l : List Input) : State := { s with inputs := l }

/-- Move the top frame to a phase (`PHASE <- p`). -/
def State.setPhase (s : State) (p : Phase) : State := s.setTop { s.top with phase := p }

/-- How many contexts are alive (R23). -/
def State.depth (s : State) : Nat := s.below.length + 1

/-- The register block after power-on with given draws (R38): `WAKE` exists only when `HAS_WAKE` (R31), and `pll_div` is any
value of `DIV_WIDTH` bits. -/
def RegBlock.reset (c : Cfg) (d : ResetDraw) : RegBlock where
  cg0 := d.cg0
  cg1 := d.cg1
  wake := if c.hasWake then some d.wake else none
  pllDiv := BitVec.ofNat 8 (d.pllDiv.toNat % 2 ^ c.divWidth)
  selPll := d.selPll

/-- The state after power-on in a configuration and with given draws (R38, R191): `SAFE = 0`, one `IDLE` frame without latch
values. -/
def State.resetWith (c : Cfg) (d : ResetDraw) : State where
  cfg := c
  regs := RegBlock.reset c d
  ie := d.ie
  safe := false
  top := Frame.fresh
  below := []
  inputs := []

/-- The draws of `State.reset`, all zero (DESIGN CHOICE, notes/assumptions/4.md: the spec gives none). -/
def ResetDraw.zero : ResetDraw := ⟨0, 0, 0, 0, false, false⟩

/-- The machine right after reset (R38, R191), in the configuration `T0cfg(VA)` (DESIGN CHOICE, notes/assumptions/3.md) and
with zero draws (DESIGN CHOICE, notes/assumptions/4.md). -/
def State.reset : State := State.resetWith (t0cfg .va) ResetDraw.zero

end Sys2Proof.Machine
end

