-- ==== Sys2Proof/Machine/Flags.lean ====
section
/-! DEFINITION. What the flags `IE` and `SAFE` allow, and the two phase sets that go with them (10_state.md R26, R27;
40_protocol.md R103). The block has no arithmetic flags. -/

namespace Sys2Proof.Machine

/-- A write to the register block is inside the Critical-Section Protocol: `SAFE = 1` and `IE = 0` (R62, U3). -/
def State.protocolHeld (s : State) : Bool := s.safe && !s.ie

/-- `E_PREEMPT` is enabled: `IE = 1` and the stack depth is below `N_CTX` (R177). -/
def State.preemptEnabled (s : State) : Bool := s.ie && decide (s.depth < s.cfg.nCtx)

/-- The phases in which the register block is unlocked, from `S_ENTER` to `S_LEAVE` (R103 (a)). -/
def Phase.unlocked : Phase → Bool
  | .opened | .loaded | .stored1 | .stored => true
  | .idle | .ready | .masked | .closed | .get0 | .get1 => false

/-- The phases of the protected region, from `S_DISABLE` to `S_RESTORE`, in which interrupts are off (R90, R103 (b)). -/
def Phase.inRegion : Phase → Bool
  | .masked | .opened | .loaded | .stored1 | .stored | .closed => true
  | .idle | .ready | .get0 | .get1 => false

end Sys2Proof.Machine
end

