-- ==== Sys2Proof/Machine/Operands.lean ====
section
/-! DEFINITION. What the commands compute from their operands and from the fields they read: the read-modify-write of the gate
commands (42_gate.md R130), the range check and division of SETHCLK (43_hclk.md R151), the frequency of GETHCLK (R155). -/

namespace Sys2Proof.Machine

/-- `new = off ? (current | mask) : (current & ~mask)` (R130). -/
def gateValue (off : Bool) (current mask : Byte) : Byte :=
  if off then current ||| mask else current &&& ~~~mask

/-- `F_PLL`, the 480 MHz reference, in Hz (R6). -/
def fPll : Nat := 480000000

/-- `F_OSC`, the fixed 30 MHz reference, in Hz (R6). -/
def fOsc : Nat := 30000000

/-- The high request range, 30 MHz to 120 MHz inclusive (R6, R151). -/
def inHighRange (hz : Nat) : Bool := decide (30000000 ≤ hz ∧ hz ≤ 120000000)

/-- The low request range, 2 MHz inclusive to 30 MHz exclusive (R6, R151). -/
def inLowRange (hz : Nat) : Bool := decide (2000000 ≤ hz ∧ hz < 30000000)

/-- The divider and the source select that SETHCLK computes (the latches `DIV` and `SEL`). -/
structure Divided where
  div : BitVec 5
  sel : Bool
deriving DecidableEq, Repr

/-- The three cases of SETHCLK, tested in the order of R151; `none` is "request rejected". The range is the only check
(R153, conflict C1). -/
def quantize (hz : BitVec 32) : Option Divided :=
  if inHighRange hz.toNat then some ⟨BitVec.ofNat 5 (fPll / hz.toNat), true⟩
  else if inLowRange hz.toNat then some ⟨BitVec.ofNat 5 (fOsc / hz.toNat), false⟩
  else none

/-- `HclkOf(d, s)` as a natural number of Hz (R155); a zero divider is the alias of R156, never a division. -/
def hclkHz (d : Nat) (sel : Bool) : Nat :=
  if sel then (if d = 0 then 30000000 else fPll / d)
  else (if d = 0 then 2000000 else fOsc / d)

/-- `HclkOf(d, s)` as the 32-bit result (R77, R155). -/
def hclkOf (d : Byte) (sel : Bool) : ResWord := BitVec.ofNat 32 (hclkHz d.toNat sel)

/-- `sext_32(FAIL_CODE)` (R77). -/
def failWord (c : Cfg) : ResWord := BitVec.ofInt 32 c.failCode

/-- `d mod 2^DIV_WIDTH`, what a store of the divider `d` keeps (R32, R53). -/
def storedDiv (c : Cfg) (d : BitVec 5) : Byte := BitVec.ofNat 8 (d.toNat % 2 ^ c.divWidth)

end Sys2Proof.Machine
end

