-- ==== Sys2Proof/Machine/Ops.lean ====
section
/-! DEFINITION. The named operations that the meanings and the micro-operations share: reading a latch, reading and writing
the register block, accepting a command, taking an interrupt and returning from one. -/

namespace Sys2Proof.Machine

/-- Go on with the answer of an operation, or stop as it stopped. -/
def andThen {α β : Type} (o : Result α) (k : α → Result β) : Result β :=
  match o with
  | .next a => k a
  | .fault f => .fault f
  | .refused r => .refused r

/-- `x[NAME]`: the value of a latch; an unwritten latch has none (R21). -/
def latch {α : Type} (name : Latch) (v : Option α) : Result α :=
  match v with
  | some a => .next a
  | none => .fault (.unwrittenLatch name)

/-! ### The register block by name (20_memory.md R51 to R53) -/

/-- The byte of a gate register, if the register exists. -/
def RegBlock.gate (r : RegBlock) : GateReg → Option Byte
  | .cg0 => some r.cg0
  | .cg1 => some r.cg1
  | .wake => r.wake

/-- The register block with a gate register replaced; a `WAKE` that does not exist stays absent. -/
def RegBlock.setGate (r : RegBlock) (g : GateReg) (v : Byte) : RegBlock :=
  match g with
  | .cg0 => { r with cg0 := v }
  | .cg1 => { r with cg1 := v }
  | .wake => { r with wake := r.wake.map fun _ => v }

/-- `RegRead(r)` of a gate register (R51): all 8 bits, no side effect, no permission needed (R62). -/
def regRead (g : GateReg) (s : State) : Result Byte :=
  match s.regs.gate g with
  | some v => .next v
  | none => .fault .absentWake

/-- `RegWrite(r, v)` of a gate register (R51), inside the protocol only (R62). -/
def regWrite (g : GateReg) (v : Byte) (s : State) : Result State :=
  if s.protocolHeld then
    match s.regs.gate g with
    | some _ => .next (s.setRegs (s.regs.setGate g v))
    | none => .fault .absentWake
  else .refused .writeOutsideProtocol

/-- `RegWrite(PLLDIV, d)`: `pll_div <- d mod 2^DIV_WIDTH` (R53), inside the protocol only (R62). -/
def writePllDiv (d : BitVec 5) (s : State) : Result State :=
  if s.protocolHeld then .next (s.setRegs { s.regs with pllDiv := storedDiv s.cfg d })
  else .refused .writeOutsideProtocol

/-- `RegWrite(CFGCTRL, s)`: `sel_pll <- s` (R53), inside the protocol only (R62). -/
def writeSelPll (b : Bool) (s : State) : Result State :=
  if s.protocolHeld then .next (s.setRegs { s.regs with selPll := b })
  else .refused .writeOutsideProtocol

/-! ### The register block by address (20_memory.md R50, R51, R57) -/

/-- The five registers of the block (R28). -/
inductive Reg where
  | gate (g : GateReg)
  | pllDiv
  | cfgCtrl
deriving DecidableEq, Repr

/-- The byte address `BASE + OFF_<name>` of a register (R28, R50). -/
def addrOf (c : Cfg) : Reg → Nat
  | .gate .cg0 => c.base + c.offCg0
  | .gate .cg1 => c.base + c.offCg1
  | .gate .wake => c.base + c.offWake
  | .pllDiv => c.base + c.offPllDiv
  | .cfgCtrl => c.base + c.offCfgCtrl

/-- The register at a byte address: one of the five, `WAKE` only when `HAS_WAKE` (R50). -/
def regAt (c : Cfg) (a : Nat) : Option Reg :=
  if a = addrOf c (.gate .cg0) then some (.gate .cg0)
  else if a = addrOf c (.gate .cg1) then some (.gate .cg1)
  else if c.hasWake && a == addrOf c (.gate .wake) then some (.gate .wake)
  else if a = addrOf c .pllDiv then some .pllDiv
  else if a = addrOf c .cfgCtrl then some .cfgCtrl
  else none

/-- `MemRead(addr, 1)` (R51): the byte of a gate register. A raw read of `PLLDIV` or `CFGCTRL` is refused (R34); no other
address exists (R50). -/
def memRead (a : Nat) (s : State) : Result Byte :=
  match regAt s.cfg a with
  | some (.gate g) => regRead g s
  | some .pllDiv => .refused .rawEncodedAccess
  | some .cfgCtrl => .refused .rawEncodedAccess
  | none => .fault .unmappedAddress

/-- `MemWrite(addr, 1, v)` (R51), with the same limits as `memRead` and inside the protocol only (R62). -/
def memWrite (a : Nat) (v : Byte) (s : State) : Result State :=
  match regAt s.cfg a with
  | some (.gate g) => regWrite g v s
  | some .pllDiv => .refused .rawEncodedAccess
  | some .cfgCtrl => .refused .rawEncodedAccess
  | none => .fault .unmappedAddress

/-! ### Accepting a command (40_protocol.md R91) -/

/-- The frame at the start of a command: `CMD` holds the word, and of the earlier latches only `RES` keeps its value (R20,
R21, R40). -/
def Frame.begin (f : Frame) (w : CmdWord) : Frame :=
  { Frame.fresh with cmd := some w, res := f.res }

/-- The part of `S_ACCEPT` that all commands share (R91): it is enabled only at `IDLE`, `SAFE` must be 0 (R102), `CMD` is
written, and then the latches and the phase that the command's own rule gives. -/
def accept (i : Instr) (s : State) (latches : Frame → Frame) : Result State :=
  if s.top.phase ≠ .idle then .refused .frameBusy
  else if s.safe then .refused .unlockedAtAccept
  else .next (s.setTop (latches (s.top.begin (encode i))))

/-- The latches of a command that runs the `GATE` sequence (R131 to R133). -/
def Frame.gateCommand (f : Frame) (g : GateReg) (mask : Byte) (off : Bool) : Frame :=
  { f with kind := some .gate, tgt := some g, m := some mask, off := some off, phase := .ready }

/-! ### Taking an interrupt and returning from it (60_exceptions.md R177, R178) -/

/-- `E_PREEMPT`: push a new `IDLE` frame without latch values and set `IE` to the draw; nothing else is saved and no register
changes (R177, R180). -/
def preempt (handlerIe : Bool) (s : State) : Result State :=
  if s.preemptEnabled then
    .next { s with ie := handlerIe, top := Frame.fresh, below := s.top :: s.below }
  else .refused .preemptNotEnabled

/-- `E_RETURN`: pop the top frame, which must be `IDLE`, and set `IE <- 1`; the frame below goes on from its phase (R178). -/
def handlerReturn (s : State) : Result State :=
  match s.below with
  | [] => .refused .returnNotEnabled
  | f :: rest =>
    if s.top.phase = .idle then .next { s with ie := true, top := f, below := rest }
    else .refused .returnNotEnabled

end Sys2Proof.Machine
end

