-- ==== Sys2Proof/Machine/Gate.lean ====
section
/-! DEFINITION. The meanings of the clock-gate commands GATE0, GATE1 and GATEID (42_gate.md): what `S_ACCEPT` writes. The
`GATE` sequence that follows is in Machine/Protocol.lean. -/

namespace Sys2Proof.Machine

/-- `GATE0 mask, off`: the `GATE` sequence on `CG0` (R131). -/
def execGate0 (mask : Byte) (off : Bool) (s : State) : Result State :=
  accept (.gate0 mask off) s fun f => f.gateCommand .cg0 mask off

/-- `GATE1 mask, off`: the `GATE` sequence on `CG1` (R132). -/
def execGate1 (mask : Byte) (off : Bool) (s : State) : Result State :=
  accept (.gate1 mask off) s fun f => f.gateCommand .cg1 mask off

/-- `GATEID id, off`: with a binding `(g, b)`, `BIT` and `RES` are `b` and the `GATE` sequence runs on `g` with `MaskOf(b)`;
without one, `BIT` and `RES` are 0 and the command is complete (R133). -/
def execGateId (id : Identity) (off : Bool) (s : State) : Result State :=
  accept (.gateid id off) s fun f =>
    match resolve s.cfg id with
    | some r =>
      { f with bit := some r.bit, res := some (r.bit.setWidth 32) }.gateCommand r.reg (maskOf r.bit) off
    | none => { f with bit := some 0, res := some 0 }

end Sys2Proof.Machine
end

