-- ==== Sys2Proof/Machine/Hclk.lean ====
section
/-! DEFINITION. The meanings of the frequency commands SETHCLK and GETHCLK (43_hclk.md): what `S_ACCEPT` writes. The `SET` and
`GET` sequences that follow are in Machine/Protocol.lean. -/

namespace Sys2Proof.Machine

/-- `SETHCLK hz`: in range, the divider, the source select and the result 0 are latched and the `SET` sequence follows; out
of range, `RES` is the failure code and the command is complete (R151). -/
def execSetHclk (hz : BitVec 32) (s : State) : Result State :=
  accept (.sethclk hz) s fun f =>
    match quantize hz with
    | some q =>
      { f with div := some q.div, sel := some q.sel, res := some 0, kind := some .set, phase := .ready }
    | none => { f with res := some (failWord s.cfg) }

/-- `GETHCLK`: the `GET` sequence follows (R155). -/
def execGetHclk (s : State) : Result State :=
  accept .gethclk s fun f => { f with kind := some .get, phase := .get0 }

end Sys2Proof.Machine
end

