-- ==== Sys2Proof/Machine/Dispatch.lean ====
section
/-! DEFINITION. The meaning of each command (30_encoding.md R70). -/

namespace Sys2Proof.Machine

def exec (i : Instr) (s : State) : Host.Outcome State Fault Refusal :=
  match i with
  | .gate0 mask off => Sys2Proof.Machine.execGate0 mask off s
  | .gate1 mask off => Sys2Proof.Machine.execGate1 mask off s
  | .gateid id off => Sys2Proof.Machine.execGateId id off s
  | .sethclk hz => Sys2Proof.Machine.execSetHclk hz s
  | .gethclk => Sys2Proof.Machine.execGetHclk s

end Sys2Proof.Machine
end

