-- ==== Sys2Proof/Machine/Protocol.lean ====
section
/-! DEFINITION. The micro-operations after `S_ACCEPT` (40_protocol.md R92 to R101) and the state machine that orders them
(R90, R104). Each acts on the top frame. -/

namespace Sys2Proof.Machine

/-- `S_DISABLE`: `x[SAVED] <- IE; IE <- 0; PHASE <- MASKED` (R92). -/
def sDisable (s : State) : Result State :=
  .next ((s.setTop { s.top with saved := some s.ie, phase := .masked }).setIe false)

/-- `S_ENTER`: `SAFE <- 1; PHASE <- OPEN` (R93). -/
def sEnter (s : State) : Result State := .next ((s.setPhase .opened).setSafe true)

/-- `S_READ`: `x[TMP] <- RegRead(x[TGT]); PHASE <- LOADED` (R94). -/
def sRead (s : State) : Result State :=
  andThen (latch .TGT s.top.tgt) fun g =>
  andThen (regRead g s) fun v =>
  .next (s.setTop { s.top with tmp := some v, phase := .loaded })

/-- `S_WRITE`: `RegWrite(x[TGT], x[OFF] = 1 ? (x[TMP] | x[M]) : (x[TMP] & ~x[M])); PHASE <- STORED` (R95), whatever the
value (R56). -/
def sWrite (s : State) : Result State :=
  andThen (latch .TGT s.top.tgt) fun g =>
  andThen (latch .OFF s.top.off) fun off =>
  andThen (latch .TMP s.top.tmp) fun cur =>
  andThen (latch .M s.top.m) fun mask =>
  andThen (regWrite g (gateValue off cur mask) s) fun t => .next (t.setPhase .stored)

/-- `S_WRDIV`: `RegWrite(PLLDIV, x[DIV]); PHASE <- STORED1` (R96). -/
def sWrDiv (s : State) : Result State :=
  andThen (latch .DIV s.top.div) fun d =>
  andThen (writePllDiv d s) fun t => .next (t.setPhase .stored1)

/-- `S_WRSEL`: `RegWrite(CFGCTRL, x[SEL]); PHASE <- STORED` (R97). -/
def sWrSel (s : State) : Result State :=
  andThen (latch .SEL s.top.sel) fun b =>
  andThen (writeSelPll b s) fun t => .next (t.setPhase .stored)

/-- `S_LEAVE`: `SAFE <- 0; PHASE <- CLOSED` (R98). -/
def sLeave (s : State) : Result State := .next ((s.setPhase .closed).setSafe false)

/-- `S_RESTORE`: `IE <- x[SAVED]; PHASE <- IDLE` (R99). -/
def sRestore (s : State) : Result State :=
  andThen (latch .SAVED s.top.saved) fun b => .next ((s.setPhase .idle).setIe b)

/-- `S_RDDIV`: `x[TDIV] <- RegRead(PLLDIV); PHASE <- GET1` (R100), outside any region. -/
def sRdDiv (s : State) : Result State :=
  .next (s.setTop { s.top with tdiv := some s.regs.pllDiv, phase := .get1 })

/-- `S_RDSEL`: `s <- RegRead(CFGCTRL); x[RES] <- HclkOf(x[TDIV], s); PHASE <- IDLE` (R101). -/
def sRdSel (s : State) : Result State :=
  andThen (latch .TDIV s.top.tdiv) fun d =>
  .next (s.setTop { s.top with res := some (hclkOf d s.regs.selPll), phase := .idle })

/-- At `OPEN` the sequence goes by `x[KIND]`: `S_READ` for `GATE`, `S_WRDIV` for `SET`, nothing for `GET` (R104). -/
def atOpen (s : State) : Result State :=
  andThen (latch .KIND s.top.kind) fun k =>
  match k with
  | .gate => sRead s
  | .set => sWrDiv s
  | .get => .fault .noMicroOperation

/-- The micro-operation that the phase of the top frame enables (R90, R106). At `IDLE` there is none besides `S_ACCEPT`, and
the block waits (R191). -/
def micro (s : State) : Result State :=
  match s.top.phase with
  | .idle => .next s
  | .ready => sDisable s
  | .masked => sEnter s
  | .opened => atOpen s
  | .loaded => sWrite s
  | .stored1 => sWrSel s
  | .stored => sLeave s
  | .closed => sRestore s
  | .get0 => sRdDiv s
  | .get1 => sRdSel s

/-- `n` micro-operations of the top frame, stopping where one stops. -/
def microRun : Nat → State → Result State
  | 0, s => .next s
  | n + 1, s => andThen (micro s) (microRun n)

end Sys2Proof.Machine
end

