-- ==== Sys2Proof/Machine/Sequencer.lean ====
section
/-! DEFINITION. One step of the machine: a micro-operation of the top frame, an accepted command, or a step of the
environment, as the head of the inputs says (INDEX.md; 10_state.md R25; 60_exceptions.md R177, R178). -/

namespace Sys2Proof.Machine

/-- Presenting a word to the top frame at `IDLE`: the decoded command's `S_ACCEPT`, or the refusal of an invalid word (R78,
R91). -/
def present (w : CmdWord) (s : State) : Result State :=
  match decode w with
  | .ok i => exec i s
  | .error e => .refused (.invalidWord e)

/-- Power: the state after reset, with the same configuration (R190 to R192) and the inputs that are still to come. -/
def powerOn (d : ResetDraw) (s : State) : State := (State.resetWith s.cfg d).setInputs s.inputs

/-- One step. Without an input the top frame performs its micro-operation, or waits at `IDLE` (R191). A command waits until
the top frame is `IDLE` (R25). An environment step that is not enabled is refused (R207). -/
def nextStep (s : State) : Result State :=
  match s.inputs with
  | [] => micro s
  | .command w :: rest =>
    if s.top.phase = .idle then present w (s.setInputs rest) else micro s
  | .advance :: rest => micro (s.setInputs rest)
  | .preempt e :: rest => preempt e (s.setInputs rest)
  | .handlerEnd :: rest => handlerReturn (s.setInputs rest)
  | .powerCycle d :: rest => .next (powerOn d (s.setInputs rest))

/-- A whole command of the top frame without interruption: its `S_ACCEPT` and then at most six micro-operations, waiting at
`IDLE` when it is complete sooner (R106). -/
def runCommand (i : Instr) (s : State) : Result State := andThen (exec i s) (microRun 6)

end Sys2Proof.Machine
end

