-- ==== Sys2Proof/Machine/Step.lean ====
section
/-! DEFINITION. The step of the machine, and how a single command word is put where the next step takes it. -/

namespace Sys2Proof.Machine

/-- One step of the machine (Machine/Sequencer.lean). -/
def step (s : State) : Host.Outcome State Fault Refusal := nextStep s

/-- The state with a command word placed so that the very next step takes it: the word is the first input, and the top frame
is `IDLE`, the phase in which a word is presented (R25). Bits above `nbits` are 0. -/
def State.withFetchWord (s : State) (nbits w : Nat) : State :=
  (s.setPhase .idle).setInputs (.command (BitVec.ofNat 40 (w % 2 ^ nbits)) :: s.inputs)

end Sys2Proof.Machine
end

