-- ==== Sys2Proof/Machine/Assembler.lean ====
section
/-! DEFINITION. The textual form of a command (30_encoding.md R80), read over lists of characters: one command a line, a
mnemonic (or D00's own spelling of it, R70) and its operands separated by commas, with an optional `@k` before it and a
comment after `;`. -/

namespace Sys2Proof.Asm

/-- Why a line is not a command. -/
inductive AsmError where
  | noCommand
  | badFrame
  | unknownMnemonic
  | badOperands
deriving DecidableEq, Repr

/-- A command line: the issuing frame where the line names one, and the command. -/
structure Line where
  frame : Option Nat
  instr : Instr
deriving DecidableEq, Repr

/-- The peripheral names that a configuration defines (R80; 95_test_vectors.md section 1). -/
abbrev Names := List (List Char × Identity)

/-- White space between words. -/
def isBlank (c : Char) : Bool := c == ' ' || c == '\t'

/-- The characters before the first `;`. -/
def dropComment (l : List Char) : List Char := l.takeWhile fun c => c != ';'

/-- A word without the white space around it. -/
def trim (l : List Char) : List Char := ((l.dropWhile isBlank).reverse.dropWhile isBlank).reverse

/-- The parts of a text between commas. -/
def splitCommas : List Char → List (List Char)
  | [] => [[]]
  | c :: rest =>
    match splitCommas rest with
    | [] => [[]]
    | p :: ps => if c = ',' then [] :: p :: ps else (c :: p) :: ps

/-- The operands of a command: none when nothing stands there. -/
def operands (l : List Char) : List (List Char) :=
  if trim l = [] then [] else (splitCommas l).map trim

/-- The value of a digit in a base, either case. -/
def digit (base : Nat) (c : Char) : Option Nat :=
  let n := c.toNat
  let v := if 48 ≤ n ∧ n ≤ 57 then some (n - 48)
    else if 97 ≤ n ∧ n ≤ 102 then some (n - 87)
    else if 65 ≤ n ∧ n ≤ 70 then some (n - 55)
    else none
  v.bind fun d => if d < base then some d else none

/-- Digits in a base, most significant first. -/
def digits (base : Nat) (acc : Nat) : List Char → Option Nat
  | [] => some acc
  | c :: rest => (digit base c).bind fun d => digits base (acc * base + d) rest

/-- At least one digit in a base. -/
def digits1 (base : Nat) (l : List Char) : Option Nat :=
  if l = [] then none else digits base 0 l

/-- A numeral: `0x` hexadecimal, `0b` binary, otherwise decimal; underscores only group digits (00_scope.md section 4). -/
def numeral (l : List Char) : Option Nat :=
  match l.filter fun c => c != '_' with
  | '0' :: 'x' :: ds => digits1 16 ds
  | '0' :: 'b' :: ds => digits1 2 ds
  | ds => digits1 10 ds

/-- A numeral below a bound. -/
def numeralBelow (bound : Nat) (l : List Char) : Option Nat :=
  (numeral l).bind fun n => if n < bound then some n else none

/-- The operand `off`: 0 or 1; with D00's own spellings a non-zero argument is read as 1 (R80). -/
def offOperand (d00 : Bool) (l : List Char) : Option Bool :=
  (numeral l).bind fun n => if n = 0 then some false else if n = 1 ∨ d00 then some true else none

/-- The operand `id`: a numeral, or a name that the configuration defines (R80). -/
def idOperand (names : Names) (l : List Char) : Option Identity :=
  match names.find? fun p => p.1 == l with
  | some p => some p.2
  | none => (numeralBelow 65536 l).map (BitVec.ofNat 16)

/-- The mnemonics, and D00's spellings of R70 with the flag that they are D00's. -/
def mnemonicOf (l : List Char) : Option (Mnemonic × Bool) :=
  if l = "GATE0".toList then some (.GATE0, false)
  else if l = "GATE1".toList then some (.GATE1, false)
  else if l = "GATEID".toList then some (.GATEID, false)
  else if l = "SETHCLK".toList then some (.SETHCLK, false)
  else if l = "GETHCLK".toList then some (.GETHCLK, false)
  else if l = "gate_group0".toList ∨ l = "set_group0".toList then some (.GATE0, true)
  else if l = "gate_group1".toList ∨ l = "set_group1".toList then some (.GATE1, true)
  else if l = "gate_by_identity".toList ∨ l = "set_by_identity".toList then some (.GATEID, true)
  else if l = "set_hclk".toList ∨ l = "set_frequency".toList then some (.SETHCLK, true)
  else if l = "get_hclk".toList ∨ l = "get_frequency".toList then some (.GETHCLK, true)
  else none

/-- The command of a mnemonic and its operands, in the order of D00's parameter lists (R80). -/
def command (names : Names) (m : Mnemonic) (d00 : Bool) (ops : List (List Char)) : Option Instr :=
  match m, ops with
  | .GATE0, [x, o] =>
    (numeralBelow 256 x).bind fun v => (offOperand d00 o).map fun b => .gate0 (BitVec.ofNat 8 v) b
  | .GATE1, [x, o] =>
    (numeralBelow 256 x).bind fun v => (offOperand d00 o).map fun b => .gate1 (BitVec.ofNat 8 v) b
  | .GATEID, [x, o] =>
    (idOperand names x).bind fun v => (offOperand d00 o).map fun b => .gateid v b
  | .SETHCLK, [x] => (numeralBelow 4294967296 x).map fun v => .sethclk (BitVec.ofNat 32 v)
  | .GETHCLK, [] => some .gethclk
  | _, _ => none

/-- A mnemonic and its operands. -/
def statement (names : Names) (l : List Char) : Except AsmError Instr :=
  let word := l.takeWhile fun c => !isBlank c
  let rest := l.dropWhile fun c => !isBlank c
  match mnemonicOf word with
  | none => .error .unknownMnemonic
  | some (m, d00) =>
    match command names m d00 (operands rest) with
    | some i => .ok i
    | none => .error .badOperands

/-- One line of assembler text (R80). -/
def parseLine (names : Names) (line : List Char) : Except AsmError Line :=
  match trim (dropComment line) with
  | [] => .error .noCommand
  | '@' :: rest =>
    match digits1 10 (rest.takeWhile fun c => !isBlank c) with
    | none => .error .badFrame
    | some k => (statement names (trim (rest.dropWhile fun c => !isBlank c))).map fun i => ⟨some k, i⟩
  | l => (statement names l).map fun i => ⟨none, i⟩

end Sys2Proof.Asm
end

