-- ==== Sys2Proof/Machine/Observe.lean ====
section
/-! DEFINITION. What can be seen of the block from outside: the two observation functions of 10_state.md R37, and the
accesses to the register block that the micro-operations make (20_memory.md R56, R64; 70_reset_and_hazards.md R206). -/

namespace Sys2Proof.Machine

/-- The two registers on which `Gated` is defined (R37). -/
inductive Group where
  | group0 | group1
deriving DecidableEq, Repr

/-- `Gated(r, b)`: bit `b` of `CG0` or `CG1`, 1 meaning that the clock of the peripheral bound to it is gated off. It is
defined for `b` from 1 to 7 (R37). -/
def gated (r : Group) (b : BitPos) (s : State) : Option Bool :=
  if b = 0 then none
  else match r with
    | .group0 => some (s.regs.cg0.getLsbD b.toNat)
    | .group1 => some (s.regs.cg1.getLsbD b.toNat)

/-- `Hclk()`: the frequency that GETHCLK would return from the current fields (R37). -/
def hclk (s : State) : ResWord := hclkOf s.regs.pllDiv s.regs.selPll

/-- One access to the register block. The byte that a write of `PLLDIV` or `CFGCTRL` puts on the bus is not modelled (R53),
so an access names the register and not the byte. -/
inductive Access where
  | read (r : Reg)
  | write (r : Reg)
deriving DecidableEq, Repr

/-- The register that an access names. -/
def Access.reg : Access → Reg
  | .read r => r
  | .write r => r

/-- The access that the next micro-operation of the top frame makes, if it makes one (R56, R64). -/
def accessOf (s : State) : Option Access :=
  match s.top.phase with
  | .opened =>
    match s.top.kind with
    | some .gate => s.top.tgt.map fun g => .read (.gate g)
    | some .set => some (.write .pllDiv)
    | some .get => none
    | none => none
  | .loaded => s.top.tgt.map fun g => .write (.gate g)
  | .stored1 => some (.write .cfgCtrl)
  | .get0 => some (.read .pllDiv)
  | .get1 => some (.read .cfgCtrl)
  | .idle | .ready | .masked | .stored | .closed => none

/-- The accesses of the next `n` micro-operations of the top frame, in order. -/
def accessesOf : Nat → State → List Access
  | 0, _ => []
  | n + 1, s =>
    (accessOf s).toList ++
      match micro s with
      | .next t => accessesOf n t
      | .fault _ => []
      | .refused _ => []

end Sys2Proof.Machine
end

