-- ==== Sys2Proof/WellFormed.lean ====
section
/-! DEFINITION. Well-formedness. A command is well-formed whatever its operands (30_encoding.md R79: the operand types carry
the widths). A configuration is well-formed when it meets the ranges of 00_scope.md R6, the distinct addresses of
20_memory.md R50 and the conditions (a) to (e) of 41_resolver.md R116; condition (f) cannot be checked from the spec
(R117). -/

namespace Sys2Proof

/-- No operand value of a command is illegal (R79). -/
def Instr.wf : Instr → Bool
  | .gate0 _ _ => true
  | .gate1 _ _ => true
  | .gateid _ _ => true
  | .sethclk _ => true
  | .gethclk => true

/-- The ranges of the numeric fields of `Cfg` (R6). -/
def Cfg.rangesOk (c : Cfg) : Bool :=
  decide (1 ≤ c.endOfIdentities ∧ c.endOfIdentities ≤ 65536) &&
  decide (4 ≤ c.divWidth ∧ c.divWidth ≤ 8) &&
  decide (-(2 ^ 31) ≤ c.failCode ∧ c.failCode ≤ -1) &&
  decide (1 ≤ c.nCtx)

/-- The byte offsets of the five registers, in the order of R28. -/
def Cfg.offsets (c : Cfg) : List Nat :=
  [c.offCg0, c.offCg1, c.offWake, c.offPllDiv, c.offCfgCtrl]

/-- The five addresses are pairwise distinct (R6, R50). -/
def Cfg.offsetsDistinct (c : Cfg) : Bool := decide c.offsets.Nodup

/-- The identities that have an entry in some table. -/
def Cfg.boundIds (c : Cfg) : List Identity := (c.t0 ++ c.t1 ++ c.tw).map Binding.id

/-- How many of the three tables give an identity a non-zero value (R116 (a)). -/
def Cfg.ownersOf (c : Cfg) (id : Identity) : Nat :=
  ((if c.t0.lookup id = 0 then 0 else 1) + (if c.t1.lookup id = 0 then 0 else 1))
    + (if c.tw.lookup id = 0 then 0 else 1)

/-- R116 (a): no identity is non-zero in two tables. -/
def Cfg.noCollision (c : Cfg) : Bool := c.boundIds.all fun id => decide (c.ownersOf id ≤ 1)

/-- R116 (c): within one table two different identities never have the same non-zero value. -/
def Table.oneBitEach (t : Table) : Bool :=
  t.all fun e => t.all fun f =>
    decide (e.id = f.id ∨ t.lookup e.id = 0 ∨ t.lookup e.id ≠ t.lookup f.id)

/-- R116 (d): nothing at or above `END_OF_IDENTITIES` is bound. -/
def Cfg.boundBelowEnd (c : Cfg) : Bool :=
  c.boundIds.all fun id => decide (id.toNat < c.endOfIdentities ∨ c.ownersOf id = 0)

/-- R116 (e): `TW` is identically 0 unless `HAS_WAKE`. -/
def Cfg.wakeTableOk (c : Cfg) : Bool :=
  c.hasWake || c.tw.all fun e => decide (c.tw.lookup e.id = 0)

/-- A well-formed configuration: the premise of every claim that needs one (R116, R194 (a)). R116 (b) holds by the type
`BitPos`. -/
def Cfg.wf (c : Cfg) : Bool :=
  c.rangesOk && c.offsetsDistinct && c.noCollision &&
  (c.t0.oneBitEach && c.t1.oneBitEach && c.tw.oneBitEach) && c.boundBelowEnd && c.wakeTableOk

end Sys2Proof
end

