-- ==== Sys2Proof/Safety.lean ====
section
/-! DEFINITION. What counts as a legal state and as a safe run: the invariants of 40_protocol.md R103 together with what the
latches of a frame hold in each phase (10_state.md R20, R21), and the interrupt state that a run owes its thread context
(70_reset_and_hazards.md R195). -/

namespace Sys2Proof.Machine

/-- The latches that a `GATE` command has set at `S_ACCEPT` (R131 to R133); a target `WAKE` exists. -/
def Frame.GateLatches (c : Cfg) (f : Frame) : Prop :=
  f.kind = some .gate ∧ (∃ g, f.tgt = some g ∧ (g = .wake → c.hasWake = true)) ∧
    (∃ m, f.m = some m) ∧ (∃ b, f.off = some b)

/-- The latches that an accepted SETHCLK has set at `S_ACCEPT` (R151): the divider is 1 to 16 (R20). -/
def Frame.SetLatches (f : Frame) : Prop :=
  f.kind = some .set ∧ (∃ d, f.div = some d ∧ 1 ≤ d.toNat ∧ d.toNat ≤ 16) ∧ (∃ b, f.sel = some b)

/-- The saved interrupt state, written by `S_DISABLE` (R92). -/
def Frame.HasSaved (f : Frame) : Prop := ∃ b, f.saved = some b

/-- What the latches hold in each phase: every latch that the rest of the sequence reads has been written by this command
(R21, R90). -/
def Frame.LatchesOk (c : Cfg) (f : Frame) : Prop :=
  match f.phase with
  | .idle => True
  | .ready => f.GateLatches c ∨ f.SetLatches
  | .masked => (f.GateLatches c ∨ f.SetLatches) ∧ f.HasSaved
  | .opened => (f.GateLatches c ∨ f.SetLatches) ∧ f.HasSaved
  | .loaded => f.GateLatches c ∧ f.HasSaved ∧ ∃ v, f.tmp = some v
  | .stored1 => f.SetLatches ∧ f.HasSaved
  | .stored => (f.GateLatches c ∨ f.SetLatches) ∧ f.HasSaved
  | .closed => (f.GateLatches c ∨ f.SetLatches) ∧ f.HasSaved
  | .get0 => f.kind = some .get
  | .get1 => f.kind = some .get ∧ ∃ d, f.tdiv = some d ∧ d.toNat < 2 ^ c.divWidth

/-- A legal state. -/
structure Inv (s : State) : Prop where
  /-- The configuration is well-formed (R116, R194 (a)). -/
  cfgWf : s.cfg.wf = true
  /-- `SAFE = 1` exactly in the phases from `S_ENTER` to `S_LEAVE` of the top frame (R103 (a)). -/
  safeIff : s.safe = s.top.phase.unlocked
  /-- Interrupts are off in the protected region of the top frame (R103 (b)). -/
  masked : s.top.phase.inRegion = true → s.ie = false
  /-- Every suspended frame is outside its region (R103 (c)). -/
  belowOutside : ∀ f ∈ s.below, f.phase.inRegion = false
  /-- The stack is no deeper than `N_CTX` (R23). -/
  depthOk : s.depth ≤ s.cfg.nCtx
  /-- No micro-operation will read an unwritten latch (R21). -/
  topLatches : s.top.LatchesOk s.cfg
  belowLatches : ∀ f ∈ s.below, f.LatchesOk s.cfg
  /-- `WAKE` exists exactly when `HAS_WAKE` (R31). -/
  wakeIff : s.regs.wake.isSome = s.cfg.hasWake
  /-- `pll_div` has `DIV_WIDTH` bits (R32). -/
  divFits : s.regs.pllDiv.toNat < 2 ^ s.cfg.divWidth

/-- How many micro-operations the command of a frame still needs (R90, R106). -/
def Phase.remaining : Phase → Nat
  | .idle => 0
  | .ready => 6
  | .masked => 5
  | .opened => 4
  | .loaded => 3
  | .stored1 => 3
  | .stored => 2
  | .closed => 1
  | .get0 => 2
  | .get1 => 1

/-- The arrows of the state machine that micro-operations after `S_ACCEPT` follow (R90). -/
def Phase.next : Phase → List Phase
  | .idle => [.idle]
  | .ready => [.masked]
  | .masked => [.opened]
  | .opened => [.loaded, .stored1]
  | .loaded => [.stored]
  | .stored1 => [.stored]
  | .stored => [.closed]
  | .closed => [.idle]
  | .get0 => [.get1]
  | .get1 => [.idle]

/-- The `IE` that the thread context has, or will have again when its handlers have ended and its region is left (R92, R99,
R178). -/
def State.threadIe (s : State) : Bool :=
  match s.below with
  | [] => if s.top.phase.inRegion then s.top.saved.getD s.ie else s.ie
  | _ :: _ => true

/-- The input is a power cycle, which ends a run and starts another (R190). -/
def Input.isPower : Input → Bool
  | .command _ => false
  | .advance => false
  | .preempt _ => false
  | .handlerEnd => false
  | .powerCycle _ => true

/-- The next step is not a power cycle. -/
def State.noPowerNext (s : State) : Prop := ∀ i ∈ s.inputs.head?, i.isPower = false

/-- None of the inputs to come is a power cycle. -/
def State.noPower (s : State) : Prop := ∀ i ∈ s.inputs, i.isPower = false

/-- From a state in which a command has just been accepted at `READY`: `IE` is 0 after `S_DISABLE` and until `S_RESTORE`,
and `SAFE` is 1 after `S_ENTER` and until `S_LEAVE` (the flags of R131 and R151). -/
def State.RegionTimeline (s : State) : Prop :=
  ∀ k, 1 ≤ k → k ≤ 5 → ∃ t, microRun k s = .next t ∧ t.ie = false ∧ t.safe = decide (2 ≤ k ∧ k ≤ 4)

/-- The gate register that a command writes, as its meaning chooses it (R131 to R133); the frequency commands write none. -/
def gateTarget (c : Cfg) : Instr → Option GateReg
  | .gate0 _ _ => some .cg0
  | .gate1 _ _ => some .cg1
  | .gateid id _ => (resolve c id).map Resolved.reg
  | .sethclk _ => none
  | .gethclk => none

/-- The thirteen documented frequencies (R152, R158), in Hz. -/
def documentedFrequencies : List (BitVec 32) :=
  [120000000, 96000000, 80000000, 60000000, 48000000, 40000000, 32000000, 30000000,
   15000000, 10000000, 6000000, 3000000, 2000000]

/-- A run is over: the stack depth is 1, the frame is `IDLE` and no input is left (R195). -/
def State.Finished (s : State) : Prop := s.below = [] ∧ s.top.phase = .idle ∧ s.inputs = []

/-- `n` steps of the machine, stopping where one stops: `Host.Core.run` of `Sys2Proof.core` in the model's own types
(`core_run_eq` in Laws/Step.lean). -/
def run : Nat → State → Result State
  | 0, s => .next s
  | n + 1, s => andThen (step s) (run n)

/-- A safe run: no number of steps ends in a fault (R170). -/
def State.NeverFaults (s : State) : Prop := ∀ n f, run n s ≠ .fault f

end Sys2Proof.Machine
end

