-- ==== Sys2Proof/Certificates/Slice0/Obligations.lean ====
section
/-! DEFINITION. The statements about the model that the provers are asked for. Each docstring names the rules of spec/ that
it comes from; where a clause is the model's own choice it names the log entry. -/

open Sys2Proof Sys2Proof.Machine

/-! ### Encoding (30_encoding.md) -/

/-- R72 to R76: decoding the word of a command gives the command back, with every operand at every value. -/
def Obligations.EncodedCommandDecodesToItself : Prop :=
  ∀ i : Instr, i.wf = true → decode (encode i) = .ok i

/-- R71, R76, R78: a word that decodes is the one word of its command, so no bit of a valid word is ignored. -/
def Obligations.DecodedWordIsTheWordOfItsCommand : Prop :=
  ∀ (w : CmdWord) (i : Instr), decode w = .ok i → encode i = w

/-- R76: a word spells the command of a row exactly when `w & mask = match`, and at most one row matches a word. -/
def Obligations.WordSpellsACommandExactlyWhenItsRowMatches : Prop :=
  (∀ (w : CmdWord) (r : OpcodeRow), r ∈ opcodeTable →
    (w &&& r.mask = r.pattern ↔ ∃ i, decode w = .ok i ∧ i.mnemonic = r.mnemonic)) ∧
  (∀ (w : CmdWord) (r q : OpcodeRow), r ∈ opcodeTable → q ∈ opcodeTable →
    w &&& r.mask = r.pattern → w &&& q.mask = q.pattern → r = q)

/-- R78: a word that matches no row is `Invalid`, and only such a word; opcode `0x00` and opcodes from `0x06` are; presenting
an invalid word is refused, so nothing is accepted and no state changes. -/
def Obligations.InvalidWordIsRefused : Prop :=
  ∀ w : CmdWord,
    ((∀ r ∈ opcodeTable, w &&& r.mask ≠ r.pattern) ↔ ∃ e, decode w = .error e) ∧
    (opcodeOf w = 0#8 ∨ 6#8 ≤ opcodeOf w → ∃ e, decode w = .error e) ∧
    (∀ (e : InvalidWord) (s : State) (rest : List Input), decode w = .error e → s.top.phase = .idle →
      s.inputs = .command w :: rest → step s = .refused (.invalidWord e))

/-- Words written out from the formats (95_test_vectors.md 3.1, V-E1, V-E3, V-E4, V-E6, V-E8, V-E12). -/
def Obligations.SampleWordsDecodeToTheirCommands : Prop :=
  decode 0x0100000112#40 = .ok (.gate0 0x12 true) ∧
  decode 0x0200000181#40 = .ok (.gate1 0x81 true) ∧
  decode 0x0300010014#40 = .ok (.gateid 20 true) ∧
  decode 0x0407270E00#40 = .ok (.sethclk 120000000) ∧
  decode 0x0500000000#40 = .ok .gethclk ∧
  decode 0x0100000200#40 = .error .reservedBits

/-- Lines of assembler text read as their commands (R80, programs P1 and P3). -/
def Obligations.SampleLinesAssembleToTheirCommands : Prop :=
  Asm.parseLine [] "GATE0   0x06, 1".toList = .ok ⟨none, .gate0 6 true⟩ ∧
  Asm.parseLine [("UART0".toList, 20)] "GATEID UART0, 1 ; gate".toList = .ok ⟨none, .gateid 20 true⟩ ∧
  Asm.parseLine [] "@2  SETHCLK 15000000".toList = .ok ⟨some 2, .sethclk 15000000⟩ ∧
  Asm.parseLine [] "gate_group1 0b101, 7".toList = .ok ⟨none, .gate1 5 true⟩ ∧
  Asm.parseLine [] "GETHCLK".toList = .ok ⟨none, .gethclk⟩

/-! ### A step and its command (10_state.md R25; 40_protocol.md R91) -/

/-- A step with a command at the head of the inputs, at an `IDLE` top frame, is `exec` of the decoded command (R25, R91). -/
def Obligations.StepRunsTheDecodedCommand : Prop :=
  ∀ (s : State) (w : CmdWord) (rest : List Input) (i : Instr),
    s.inputs = .command w :: rest → s.top.phase = .idle → decode w = .ok i →
      step s = exec i (s.setInputs rest)

/-- A step of a frame that is not `IDLE` is its micro-operation, when no input is left, when a command waits (the input stays)
or when the environment lets it go on (the input is used up); how inputs are listed is the model's choice (log 2, log 6). -/
def Obligations.StepOfABusyFrameIsItsMicroOperation : Prop :=
  ∀ s : State, s.top.phase ≠ .idle →
    (s.inputs = [] → step s = micro s) ∧
    (∀ w rest, s.inputs = .command w :: rest → step s = micro s) ∧
    (∀ rest, s.inputs = .advance :: rest → step s = micro (s.setInputs rest))

/-- An `IDLE` block without inputs waits (R191; that waiting is a step that changes nothing is log 6). -/
def Obligations.IdleBlockWithoutInputsWaits : Prop :=
  ∀ s : State, s.top.phase = .idle → s.inputs = [] → step s = .next s

/-- R91: at `IDLE` with `SAFE = 0` every command is accepted; `S_ACCEPT` is enabled only at `IDLE`, writes `CMD`, and reads and
writes no register and no flag, no other frame and no configuration. -/
def Obligations.AcceptTouchesOnlyTheIssuingFrame : Prop :=
  (∀ (i : Instr) (s : State), s.top.phase = .idle → s.safe = false → ∃ t, exec i s = .next t) ∧
  (∀ (i : Instr) (s t : State), exec i s = .next t →
    s.top.phase = .idle ∧ t.top.cmd = some (encode i) ∧ t.regs = s.regs ∧ t.ie = s.ie ∧ t.safe = s.safe ∧
      t.below = s.below ∧ t.cfg = s.cfg ∧ t.inputs = s.inputs) ∧
  (∀ (i : Instr) (s u t : State), s.cfg = u.cfg → s.top = u.top → s.safe = u.safe → exec i s = .next t →
    exec i u = .next (u.setTop t.top))

/-- R102: a frame that would accept a command with `SAFE = 1` is refused. -/
def Obligations.AcceptWithUnlockedBlockIsRefused : Prop :=
  ∀ (i : Instr) (s : State), s.top.phase = .idle → s.safe = true → exec i s = .refused .unlockedAtAccept

/-! ### The gate commands (42_gate.md) -/

/-- R131: the word, the latches that `S_ACCEPT` writes, the whole command's effect (`CG0` alone, `RES` unchanged, `IE` and
`SAFE` as before) and the flags on the way. A latch that the command does not write holds no value (R21). -/
def Obligations.Gate0ReadsModifiesAndWritesCg0 : Prop :=
  ∀ (mask : Byte) (off : Bool) (s : State), s.top.phase = .idle → s.safe = false →
    encode (.gate0 mask off) = (0x01#8 ++ 0#23 ++ BitVec.ofBool off ++ mask : BitVec 40) ∧
    exec (.gate0 mask off) s = .next { s with top :=
      { Frame.fresh with
        cmd := some (encode (.gate0 mask off)), kind := some .gate, tgt := some .cg0, m := some mask,
        off := some off, res := s.top.res, phase := .ready } } ∧
    runCommand (.gate0 mask off) s = .next { s with
      regs := { s.regs with cg0 := if off then s.regs.cg0 ||| mask else s.regs.cg0 &&& ~~~mask }
      top := { Frame.fresh with
        cmd := some (encode (.gate0 mask off)), kind := some .gate, tgt := some .cg0, m := some mask,
        off := some off, saved := some s.ie, tmp := some s.regs.cg0, res := s.top.res, phase := .idle } } ∧
    (∀ t, exec (.gate0 mask off) s = .next t → t.RegionTimeline)

/-- R132: as R131 with `CG1`. -/
def Obligations.Gate1ReadsModifiesAndWritesCg1 : Prop :=
  ∀ (mask : Byte) (off : Bool) (s : State), s.top.phase = .idle → s.safe = false →
    encode (.gate1 mask off) = (0x02#8 ++ 0#23 ++ BitVec.ofBool off ++ mask : BitVec 40) ∧
    exec (.gate1 mask off) s = .next { s with top :=
      { Frame.fresh with
        cmd := some (encode (.gate1 mask off)), kind := some .gate, tgt := some .cg1, m := some mask,
        off := some off, res := s.top.res, phase := .ready } } ∧
    runCommand (.gate1 mask off) s = .next { s with
      regs := { s.regs with cg1 := if off then s.regs.cg1 ||| mask else s.regs.cg1 &&& ~~~mask }
      top := { Frame.fresh with
        cmd := some (encode (.gate1 mask off)), kind := some .gate, tgt := some .cg1, m := some mask,
        off := some off, saved := some s.ie, tmp := some s.regs.cg1, res := s.top.res, phase := .idle } } ∧
    (∀ t, exec (.gate1 mask off) s = .next t → t.RegionTimeline)

/-- R133 with a binding `(g, b)` whose register exists: `BIT` and `RES` are `b`, and the read-modify-write of `g` with
`MaskOf(b)` follows; every other register is unchanged. -/
def Obligations.GateIdWithABindingWritesTheResolvedRegister : Prop :=
  ∀ (id : Identity) (off : Bool) (s : State) (g : GateReg) (b : BitPos) (cur : Byte),
    s.top.phase = .idle → s.safe = false → resolve s.cfg id = some ⟨g, b⟩ → s.regs.gate g = some cur →
    encode (.gateid id off) = (0x03#8 ++ 0#15 ++ BitVec.ofBool off ++ id : BitVec 40) ∧
    exec (.gateid id off) s = .next { s with top :=
      { Frame.fresh with
        cmd := some (encode (.gateid id off)), kind := some .gate, tgt := some g, m := some (1#8 <<< b.toNat),
        off := some off, bit := some b, res := some (b.setWidth 32), phase := .ready } } ∧
    runCommand (.gateid id off) s = .next { s with
      regs := s.regs.setGate g (if off then cur ||| (1#8 <<< b.toNat) else cur &&& ~~~(1#8 <<< b.toNat))
      top := { Frame.fresh with
        cmd := some (encode (.gateid id off)), kind := some .gate, tgt := some g, m := some (1#8 <<< b.toNat),
        off := some off, bit := some b, saved := some s.ie, tmp := some cur, res := some (b.setWidth 32),
        phase := .idle } } ∧
    (∀ t, exec (.gateid id off) s = .next t → t.RegionTimeline)

/-- R133 without a binding: `BIT` and `RES` are 0, the command is complete, no register is accessed, and no register, no flag
and no suspended frame changes. The frame's other latches hold no value (R21; log 5, which reads R171's "none but `RES`,
`BIT`, `CMD`" beside R21). -/
def Obligations.GateIdWithoutABindingOnlyAnswersZero : Prop :=
  ∀ (id : Identity) (off : Bool) (s : State),
    s.top.phase = .idle → s.safe = false → resolve s.cfg id = none →
    exec (.gateid id off) s = .next { s with top :=
      { Frame.fresh with cmd := some (encode (.gateid id off)), bit := some 0, res := some 0 } } ∧
    (∀ t, exec (.gateid id off) s = .next t → runCommand (.gateid id off) s = .next t ∧ accessesOf 6 t = [])

/-- R136: a gate command sets every bit of its register inside the mask to `off` and keeps every bit outside it. -/
def Obligations.GateCommandsKeepBitsOutsideTheMask : Prop :=
  ∀ (mask : Byte) (off : Bool) (s : State) (k : Nat), s.top.phase = .idle → s.safe = false → k < 8 →
    (∃ t, runCommand (.gate0 mask off) s = .next t ∧
      t.regs.cg0.getLsbD k = if mask.getLsbD k then off else s.regs.cg0.getLsbD k) ∧
    (∃ t, runCommand (.gate1 mask off) s = .next t ∧
      t.regs.cg1.getLsbD k = if mask.getLsbD k then off else s.regs.cg1.getLsbD k)

/-- R135: gating off twice is gating off once, and gating on afterwards clears exactly the masked bits; for a bound identity
and for a raw mask on either group. -/
def Obligations.GatingIsIdempotentAndClearsExactly : Prop :=
  ∀ (s : State) (on off : Instr) (g : GateReg) (mask cur : Byte),
    ((∃ m, on = .gate0 m true ∧ off = .gate0 m false ∧ g = .cg0 ∧ mask = m) ∨
     (∃ m, on = .gate1 m true ∧ off = .gate1 m false ∧ g = .cg1 ∧ mask = m) ∨
     (∃ id b, on = .gateid id true ∧ off = .gateid id false ∧ resolve s.cfg id = some ⟨g, b⟩ ∧ mask = maskOf b)) →
    s.top.phase = .idle → s.safe = false → s.regs.gate g = some cur →
    ∃ t u v, runCommand on s = .next t ∧ runCommand on t = .next u ∧ runCommand off u = .next v ∧
      t.regs.gate g = some (cur ||| mask) ∧ u.regs = t.regs ∧ v.regs.gate g = some (cur &&& ~~~mask)

/-- R37 with R29, R30: after GATEID of an identity bound in group 0 or 1, `Gated` of its bit is `off`. -/
def Obligations.GatedShowsTheLastGateCommand : Prop :=
  ∀ (id : Identity) (off : Bool) (s : State) (b : BitPos), s.top.phase = .idle → s.safe = false →
    (resolve s.cfg id = some ⟨.cg0, b⟩ →
      ∃ t, runCommand (.gateid id off) s = .next t ∧ gated .group0 b t = some off) ∧
    (resolve s.cfg id = some ⟨.cg1, b⟩ →
      ∃ t, runCommand (.gateid id off) s = .next t ∧ gated .group1 b t = some off)

/-! ### The Resolver (41_resolver.md) -/

/-- R118: the bound is tested first, then group 0, group 1 and, only with `HAS_WAKE`, the wake group; the first non-zero value
wins. -/
def Obligations.ResolveSearchesTheTablesInOrder : Prop :=
  ∀ (c : Cfg) (id : Identity),
    (c.endOfIdentities ≤ id.toNat → resolve c id = none) ∧
    (id.toNat < c.endOfIdentities →
      (c.t0.lookup id ≠ 0 → resolve c id = some ⟨.cg0, c.t0.lookup id⟩) ∧
      (c.t0.lookup id = 0 → c.t1.lookup id ≠ 0 → resolve c id = some ⟨.cg1, c.t1.lookup id⟩) ∧
      (c.t0.lookup id = 0 → c.t1.lookup id = 0 → c.hasWake = true → c.tw.lookup id ≠ 0 →
        resolve c id = some ⟨.wake, c.tw.lookup id⟩) ∧
      (c.t0.lookup id = 0 → c.t1.lookup id = 0 → (c.hasWake = true → c.tw.lookup id = 0) → resolve c id = none))

/-- R119: `Resolve` never answers bit 0, never answers `WAKE` without `HAS_WAKE`, and on a well-formed configuration its
answer does not depend on the order of the tables: every table that has a value for the identity is the one it answers. -/
def Obligations.ResolvedBindingIsLegal : Prop :=
  ∀ (c : Cfg) (id : Identity),
    (∀ r, resolve c id = some r → r.bit ≠ 0 ∧ (r.reg = .wake → c.hasWake = true)) ∧
    (c.wf = true →
      (c.t0.lookup id ≠ 0 → resolve c id = some ⟨.cg0, c.t0.lookup id⟩) ∧
      (c.t1.lookup id ≠ 0 → resolve c id = some ⟨.cg1, c.t1.lookup id⟩) ∧
      (c.tw.lookup id ≠ 0 → resolve c id = some ⟨.wake, c.tw.lookup id⟩))

/-- R116 (a), (c), (d), (e) as facts about the tables as functions: what the check `Cfg.wf` on the listed entries gives for
every identity. -/
def Obligations.WellFormedConfigurationBindsOneBitPerIdentity : Prop :=
  ∀ c : Cfg, c.wf = true →
    (∀ id, ¬ (c.t0.lookup id ≠ 0 ∧ c.t1.lookup id ≠ 0) ∧ ¬ (c.t0.lookup id ≠ 0 ∧ c.tw.lookup id ≠ 0) ∧
      ¬ (c.t1.lookup id ≠ 0 ∧ c.tw.lookup id ≠ 0)) ∧
    (∀ t, t = c.t0 ∨ t = c.t1 ∨ t = c.tw → ∀ i j : Identity, i ≠ j → Table.lookup t i ≠ 0 →
      Table.lookup t i ≠ Table.lookup t j) ∧
    (∀ id : Identity, c.endOfIdentities ≤ id.toNat →
      c.t0.lookup id = 0 ∧ c.t1.lookup id = 0 ∧ c.tw.lookup id = 0) ∧
    (c.hasWake = false → ∀ id, c.tw.lookup id = 0)

/-- R112: the seven masks. -/
def Obligations.MaskOfIsTheOneHotByte : Prop :=
  maskOf 1 = 0x02 ∧ maskOf 2 = 0x04 ∧ maskOf 3 = 0x08 ∧ maskOf 4 = 0x10 ∧ maskOf 5 = 0x20 ∧ maskOf 6 = 0x40 ∧
    maskOf 7 = 0x80

/-! ### The frequency commands (43_hclk.md) -/

/-- R151, the two accepted cases: the word, the latches, the two fields after the whole command, every gate register
unchanged, the result 0 and the flags on the way. -/
def Obligations.SetHclkInRangeWritesDividerAndSelect : Prop :=
  ∀ (hz : BitVec 32) (s : State) (ref : Nat) (sel : Bool), s.top.phase = .idle → s.safe = false →
    ((30000000 ≤ hz.toNat ∧ hz.toNat ≤ 120000000 ∧ ref = 480000000 ∧ sel = true) ∨
     (2000000 ≤ hz.toNat ∧ hz.toNat < 30000000 ∧ ref = 30000000 ∧ sel = false)) →
    encode (.sethclk hz) = (0x04#8 ++ hz : BitVec 40) ∧
    exec (.sethclk hz) s = .next { s with top :=
      { Frame.fresh with
        cmd := some (encode (.sethclk hz)), kind := some .set, div := some (BitVec.ofNat 5 (ref / hz.toNat)),
        sel := some sel, res := some 0, phase := .ready } } ∧
    runCommand (.sethclk hz) s = .next { s with
      regs := { s.regs with pllDiv := BitVec.ofNat 8 (ref / hz.toNat % 2 ^ s.cfg.divWidth), selPll := sel }
      top := { Frame.fresh with
        cmd := some (encode (.sethclk hz)), kind := some .set, div := some (BitVec.ofNat 5 (ref / hz.toNat)),
        sel := some sel, saved := some s.ie, res := some 0, phase := .idle } } ∧
    (∀ t, exec (.sethclk hz) s = .next t → t.RegionTimeline)

/-- R151, R154, the rejected case: only `CMD` and `RES` of the frame are written, with the failure code, the command is
complete, and a GETHCLK that follows returns what it would have returned before. The frame's other latches hold no value (R21;
log 5). -/
def Obligations.SetHclkOutOfRangeChangesNothing : Prop :=
  ∀ (hz : BitVec 32) (s : State), s.top.phase = .idle → s.safe = false →
    (hz.toNat < 2000000 ∨ 120000000 < hz.toNat) →
    exec (.sethclk hz) s = .next { s with top :=
      { Frame.fresh with cmd := some (encode (.sethclk hz)), res := some (BitVec.ofInt 32 s.cfg.failCode) } } ∧
    (s.cfg.wf = true → (BitVec.ofInt 32 s.cfg.failCode).toInt = s.cfg.failCode ∧ s.cfg.failCode < 0) ∧
    (∀ t, exec (.sethclk hz) s = .next t → runCommand (.sethclk hz) s = .next t ∧ accessesOf 6 t = [] ∧
      ∃ u, runCommand .gethclk t = .next u ∧ u.top.res = some (hclk s))

/-- R155: the word, the latches, and after the two reads `RES = HclkOf(pll_div, sel_pll)`; no register and no flag
changes. The frame's other latches hold no value (R21; log 5). -/
def Obligations.GetHclkAnswersTheSelectedFrequency : Prop :=
  ∀ s : State, s.top.phase = .idle → s.safe = false →
    encode .gethclk = (0x05#8 ++ 0#32 : BitVec 40) ∧
    exec .gethclk s = .next { s with top :=
      { Frame.fresh with cmd := some (encode .gethclk), kind := some .get, res := s.top.res, phase := .get0 } } ∧
    runCommand .gethclk s = .next { s with top :=
      { Frame.fresh with
        cmd := some (encode .gethclk), kind := some .get, tdiv := some s.regs.pllDiv
        res := some (BitVec.ofNat 32
          (if s.regs.selPll then (if s.regs.pllDiv.toNat = 0 then 30000000 else 480000000 / s.regs.pllDiv.toNat)
           else (if s.regs.pllDiv.toNat = 0 then 2000000 else 30000000 / s.regs.pllDiv.toNat)))
        phase := .idle } }

/-- R156: a zero divider reads as the lowest frequency of its branch. -/
def Obligations.ZeroDividerReadsAsTheLowestFrequency : Prop :=
  ∀ s : State, s.top.phase = .idle → s.safe = false → s.regs.pllDiv = 0 →
    ∃ t, runCommand .gethclk s = .next t ∧
      t.top.res = some (if s.regs.selPll then 30000000 else 2000000)

/-- R157, R159, R160: an accepted request divides by at least 2,000,000, and its quotient is 4 to 16 in the high range and 1
to 15 in the low range, so that the latch `DIV` holds it exactly. -/
def Obligations.ComputedDividerIsBetweenOneAndSixteen : Prop :=
  ∀ (hz : BitVec 32) (q : Divided), quantize hz = some q →
    2000000 ≤ hz.toNat ∧ q.div.toNat = (if q.sel then 480000000 else 30000000) / hz.toNat ∧
    (q.sel = true → 4 ≤ q.div.toNat ∧ q.div.toNat ≤ 16) ∧ (q.sel = false → 1 ≤ q.div.toNat ∧ q.div.toNat ≤ 15)

/-- R77, R155: the 32-bit result of GETHCLK is the frequency in Hz, never above 480,000,000. -/
def Obligations.FrequencyResultFitsItsWord : Prop :=
  ∀ (d : Byte) (sel : Bool), (hclkOf d sel).toNat = hclkHz d.toNat sel ∧ hclkHz d.toNat sel ≤ 480000000

/-- R158: for every documented frequency and every `DIV_WIDTH` from 4 to 8, ten steps of the machine run SETHCLK and then
GETHCLK, and the result is exactly the frequency. -/
def Obligations.DocumentedFrequenciesReadBackExactly : Prop :=
  ∀ (s : State) (hz : BitVec 32), hz ∈ documentedFrequencies → s.cfg.wf = true → s.top.phase = .idle →
    s.safe = false → s.inputs = [.command (encode (.sethclk hz)), .command (encode .gethclk)] →
    ∃ t, run 10 s = .next t ∧ t.top.phase = .idle ∧ t.top.res = some hz

/-- R199: a context at `GET1` that is preempted by a handler which completes a SETHCLK answers with its old divider and the
new source select. -/
def Obligations.PreemptedGetHclkMayBeTorn : Prop :=
  ∀ (s : State) (hz : BitVec 32) (q : Divided) (d : Byte) (e : Bool),
    s.top.phase = .get1 → s.top.tdiv = some d → s.safe = false → s.ie = true → s.depth < s.cfg.nCtx →
    quantize hz = some q →
    s.inputs = [.preempt e, .command (encode (.sethclk hz)), .advance, .advance, .advance, .advance, .advance,
      .advance, .handlerEnd, .advance] →
    ∃ t, run 10 s = .next t ∧ t.top.phase = .idle ∧ t.top.res = some (hclkOf d q.sel) ∧
      t.regs.selPll = q.sel ∧ t.regs.pllDiv = storedDiv s.cfg q.div

/-- R204: between its two writes an accepted SETHCLK holds the new divider with the old source select. -/
def Obligations.SetHclkPassesThroughATransientFrequency : Prop :=
  ∀ (hz : BitVec 32) (q : Divided) (s : State), s.top.phase = .idle → s.safe = false → quantize hz = some q →
    ∃ t u, exec (.sethclk hz) s = .next t ∧ microRun 3 t = .next u ∧ u.top.phase = .stored1 ∧ u.ie = false ∧
      u.regs = { s.regs with pllDiv := storedDiv s.cfg q.div } ∧
      hclk u = hclkOf (storedDiv s.cfg q.div) s.regs.selPll

/-! ### The micro-operations (40_protocol.md) -/

/-- R92, R93, R98, R99: disabling, unlocking, locking and restoring change their flag, the phase and (R92) `SAVED`, and
nothing else. -/
def Obligations.BracketOperationsChangeOnlyFlagAndPhase : Prop :=
  ∀ s : State,
    (s.top.phase = .ready →
      micro s = .next { s with ie := false, top := { s.top with saved := some s.ie, phase := .masked } }) ∧
    (s.top.phase = .masked → micro s = .next { s with safe := true, top := { s.top with phase := .opened } }) ∧
    (s.top.phase = .stored → micro s = .next { s with safe := false, top := { s.top with phase := .closed } }) ∧
    (∀ b, s.top.phase = .closed → s.top.saved = some b →
      micro s = .next { s with ie := b, top := { s.top with phase := .idle } })

/-- R94, R95: reading the target byte into `TMP`, and writing the modified byte back whatever its value. -/
def Obligations.ReadAndWriteOfTheTargetRegister : Prop :=
  ∀ (s : State) (g : GateReg), s.top.tgt = some g →
    (∀ v, s.top.phase = .opened → s.top.kind = some .gate → s.regs.gate g = some v →
      micro s = .next { s with top := { s.top with tmp := some v, phase := .loaded } }) ∧
    (∀ v cur mask off, s.top.phase = .loaded → s.top.tmp = some cur → s.top.m = some mask → s.top.off = some off →
      s.safe = true → s.ie = false → s.regs.gate g = some v →
      micro s = .next { s with
        regs := s.regs.setGate g (if off then cur ||| mask else cur &&& ~~~mask)
        top := { s.top with phase := .stored } })

/-- R96, R97: the two writes of SETHCLK, the divider reduced to `DIV_WIDTH` bits. -/
def Obligations.DividerAndSelectWrites : Prop :=
  ∀ s : State, s.safe = true → s.ie = false →
    (∀ d, s.top.phase = .opened → s.top.kind = some .set → s.top.div = some d →
      micro s = .next { s with
        regs := { s.regs with pllDiv := BitVec.ofNat 8 (d.toNat % 2 ^ s.cfg.divWidth) }
        top := { s.top with phase := .stored1 } }) ∧
    (∀ b, s.top.phase = .stored1 → s.top.sel = some b →
      micro s = .next { s with regs := { s.regs with selPll := b }, top := { s.top with phase := .stored } })

/-- R100, R101: the two reads of GETHCLK, whatever `IE` and `SAFE` are. -/
def Obligations.DividerAndSelectReads : Prop :=
  ∀ s : State,
    (s.top.phase = .get0 →
      micro s = .next { s with top := { s.top with tdiv := some s.regs.pllDiv, phase := .get1 } }) ∧
    (∀ d, s.top.phase = .get1 → s.top.tdiv = some d →
      micro s = .next { s with top := { s.top with res := some (hclkOf d s.regs.selPll), phase := .idle } })

/-- R90, R104: a micro-operation moves the top frame along an arrow of the state machine; at `OPEN` the kind decides; and
`S_ACCEPT` leads to `READY`, to `GET0` or, for an early exit, back to `IDLE`. -/
def Obligations.PhasesFollowTheStateMachine : Prop :=
  (∀ s t : State, micro s = .next t →
    t.top.phase ∈ s.top.phase.next ∧
    (s.top.phase = .opened → s.top.kind = some .gate → t.top.phase = .loaded) ∧
    (s.top.phase = .opened → s.top.kind = some .set → t.top.phase = .stored1)) ∧
  (∀ (i : Instr) (s t : State), exec i s = .next t →
    t.top.phase = match i with
      | .gate0 _ _ => .ready
      | .gate1 _ _ => .ready
      | .gateid id _ => if (resolve s.cfg id).isSome then .ready else .idle
      | .sethclk hz => if 2000000 ≤ hz.toNat ∧ hz.toNat ≤ 120000000 then .ready else .idle
      | .gethclk => .get0)

/-- R106: in a legal state a frame that is not `IDLE` always has its micro-operation, which brings it one step nearer to
`IDLE`, and a command that has just been accepted needs at most six more. -/
def Obligations.EveryCommandMakesProgress : Prop :=
  (∀ s : State, Inv s → s.top.phase ≠ .idle →
    ∃ t, micro s = .next t ∧ t.top.phase.remaining + 1 = s.top.phase.remaining) ∧
  (∀ (i : Instr) (s t : State), exec i s = .next t → t.top.phase.remaining ≤ 6)

/-! ### Accesses to the register block (20_memory.md) -/

/-- R62: apart from power, a register changes only in a step that writes it, with `SAFE = 1` and `IE = 0`; and with the
protocol not held a write does not happen. -/
def Obligations.RegistersChangeOnlyInsideTheProtocol : Prop :=
  (∀ s t : State, s.noPowerNext → step s = .next t → t.regs ≠ s.regs →
    s.safe = true ∧ s.ie = false ∧ ∃ r, accessOf s = some (.write r)) ∧
  (∀ (s t : State) (r : Reg), accessOf s = some (.write r) → ¬ (s.safe = true ∧ s.ie = false) → micro s ≠ .next t)

/-- R56, R64: a micro-operation changes no register but the one that its single access writes. -/
def Obligations.MicroOperationChangesOnlyTheRegisterItWrites : Prop :=
  ∀ s t : State, micro s = .next t →
    (∀ g, accessOf s ≠ some (.write (.gate g)) → t.regs.gate g = s.regs.gate g) ∧
    (accessOf s ≠ some (.write .pllDiv) → t.regs.pllDiv = s.regs.pllDiv) ∧
    (accessOf s ≠ some (.write .cfgCtrl) → t.regs.selPll = s.regs.selPll)

/-- R206: the register accesses of each command, counted and in order. -/
def Obligations.AccessesOfEachCommand : Prop :=
  ∀ s t : State, Inv s → s.top.phase = .idle →
    (∀ mask off, exec (.gate0 mask off) s = .next t →
      accessesOf 6 t = [.read (.gate .cg0), .write (.gate .cg0)]) ∧
    (∀ mask off, exec (.gate1 mask off) s = .next t →
      accessesOf 6 t = [.read (.gate .cg1), .write (.gate .cg1)]) ∧
    (∀ id off r, exec (.gateid id off) s = .next t → resolve s.cfg id = some r →
      accessesOf 6 t = [.read (.gate r.reg), .write (.gate r.reg)]) ∧
    (∀ id off, exec (.gateid id off) s = .next t → resolve s.cfg id = none → accessesOf 6 t = []) ∧
    (∀ hz q, exec (.sethclk hz) s = .next t → quantize hz = some q →
      accessesOf 6 t = [.write .pllDiv, .write .cfgCtrl]) ∧
    (∀ hz, exec (.sethclk hz) s = .next t → quantize hz = none → accessesOf 6 t = []) ∧
    (exec .gethclk s = .next t → accessesOf 6 t = [.read .pllDiv, .read .cfgCtrl])

/-- R51: at the address of an existing gate register `MemRead` returns its byte, and `MemWrite` inside the protocol replaces
that byte and changes nothing else; so the byte read back is the one written and every other address reads as before. -/
def Obligations.ByteAccessByAddress : Prop :=
  ∀ (s : State) (g : GateReg) (cur v : Byte), s.cfg.wf = true → s.regs.wake.isSome = s.cfg.hasWake →
    s.regs.gate g = some cur →
    memRead (addrOf s.cfg (.gate g)) s = .next cur ∧
    (s.safe = true → s.ie = false → ∃ t, memWrite (addrOf s.cfg (.gate g)) v s = .next t ∧
      t = { s with regs := s.regs.setGate g v } ∧
      memRead (addrOf s.cfg (.gate g)) t = .next v ∧
      ∀ a, a ≠ addrOf s.cfg (.gate g) → memRead a t = memRead a s)

/-- R34, R50: a raw byte access to `PLLDIV` or `CFGCTRL` is refused, and no address but the five is accessed (that such an
access faults is log 14). -/
def Obligations.OtherByteAccessesStop : Prop :=
  ∀ (s : State) (v : Byte), s.cfg.wf = true →
    (∀ r, r = .pllDiv ∨ r = .cfgCtrl → memRead (addrOf s.cfg r) s = .refused .rawEncodedAccess ∧
      memWrite (addrOf s.cfg r) v s = .refused .rawEncodedAccess) ∧
    (∀ a, (∀ r, a ≠ addrOf s.cfg r) → memRead a s = .fault .unmappedAddress ∧
      memWrite a v s = .fault .unmappedAddress)

/-- R64, R131 to R133, R151, R155: a whole command leaves every byte of the register block as it was, except the byte at the
address of the gate register that it targets; and only SETHCLK changes the two fields. -/
def Obligations.CommandLeavesOtherAddressesUnchanged : Prop :=
  ∀ (i : Instr) (s t : State), Inv s → runCommand i s = .next t →
    (∀ a, (∀ g, gateTarget s.cfg i = some g → a ≠ addrOf s.cfg (.gate g)) → memRead a t = memRead a s) ∧
    ((∀ hz, i ≠ .sethclk hz) → t.regs.pllDiv = s.regs.pllDiv ∧ t.regs.selPll = s.regs.selPll) ∧
    t.ie = s.ie ∧ t.safe = s.safe ∧ t.below = s.below ∧ t.cfg = s.cfg

/-! ### Contexts and interrupts (60_exceptions.md) -/

/-- R177: `E_PREEMPT` at any phase, when `IE = 1` and the stack is not full: a new `IDLE` frame without latch values, `IE` as
drawn, the frame below and every register as they were; otherwise there is no such step. -/
def Obligations.PreemptionPushesAFreshFrame : Prop :=
  ∀ (s : State) (e : Bool) (rest : List Input), s.inputs = .preempt e :: rest →
    (s.ie = true → s.depth < s.cfg.nCtx →
      step s = .next { s with ie := e, top := Frame.fresh, below := s.top :: s.below, inputs := rest }) ∧
    (s.ie = false ∨ s.cfg.nCtx ≤ s.depth → ∀ t, step s ≠ .next t)

/-- R178: `E_RETURN` from an `IDLE` handler: the frame below is the top again as it was, and `IE <- 1`; from the thread context,
or with a command half done, there is no such step. -/
def Obligations.HandlerReturnPopsTheFrame : Prop :=
  ∀ (s : State) (rest : List Input), s.inputs = .handlerEnd :: rest →
    (∀ f fs, s.below = f :: fs → s.top.phase = .idle →
      step s = .next { s with ie := true, top := f, below := fs, inputs := rest }) ∧
    (s.below = [] ∨ s.top.phase ≠ .idle → ∀ t, step s ≠ .next t)

/-- R177, R178, R207: the environment steps that are not enabled are no steps (that the model refuses them is log 7). -/
def Obligations.DisabledEnvironmentStepsAreRefused : Prop :=
  (∀ (s : State) (e : Bool) (rest : List Input), s.inputs = .preempt e :: rest →
    s.ie = false ∨ s.cfg.nCtx ≤ s.depth → step s = .refused .preemptNotEnabled) ∧
  (∀ (s : State) (rest : List Input), s.inputs = .handlerEnd :: rest → s.below = [] ∨ s.top.phase ≠ .idle →
    step s = .refused .returnNotEnabled)

/-- R23, R179, R180: a step changes at most the top frame, pushes one above it or pops it; no suspended frame changes. -/
def Obligations.OnlyTheTopFrameSteps : Prop :=
  ∀ s t : State, s.noPowerNext → step s = .next t →
    t.below = s.below ∨ (t.below = s.top :: s.below ∧ t.top = Frame.fresh ∧ t.regs = s.regs ∧ t.safe = s.safe) ∨
      (s.below = t.top :: t.below ∧ t.regs = s.regs ∧ t.safe = s.safe)

/-- R60, R134: once a `GATE` command has disabled interrupts, its five remaining micro-operations are the next five steps
whatever inputs are given: no other frame steps, `S_READ` returns the byte the register had at `S_DISABLE`, the register ends
as its read-modify-write says, no other register changes, and `IE` is what was saved. -/
def Obligations.GateRegionIsAtomicUnderEveryInput : Prop :=
  ∀ (s t : State) (g : GateReg) (mask cur : Byte) (off saved : Bool),
    Inv s → s.noPower → s.top.phase = .masked → s.top.kind = some .gate → s.top.tgt = some g →
    s.top.m = some mask → s.top.off = some off → s.top.saved = some saved → s.regs.gate g = some cur →
    run 5 s = .next t →
    t.top = { s.top with tmp := some cur, phase := .idle } ∧ t.below = s.below ∧
      t.regs = s.regs.setGate g (if off then cur ||| mask else cur &&& ~~~mask) ∧ t.ie = saved ∧ t.safe = false

/-- R103 (e): in a legal state inside the protected region, a step that is not a power cycle is the top frame's own
micro-operation. -/
def Obligations.NoOtherStepInsideTheRegion : Prop :=
  ∀ s t : State, Inv s → s.noPowerNext → s.top.phase.inRegion = true → step s = .next t →
    ∃ rest, (rest = s.inputs ∨ s.inputs = .advance :: rest) ∧ micro (s.setInputs rest) = .next t

/-! ### Invariants and runs (40_protocol.md R103; 70_reset_and_hazards.md) -/

/-- R38, R191, R194: the state after reset is legal, for every well-formed configuration, every draw and every list of
inputs. -/
def Obligations.ResetStateIsLegal : Prop :=
  ∀ (c : Cfg) (d : ResetDraw) (l : List Input), c.wf = true → Inv ((State.resetWith c d).setInputs l)

/-- R103, R21, R31, R32: every step from a legal state leads to a legal state. -/
def Obligations.EveryStepKeepsTheStateLegal : Prop :=
  ∀ s t : State, Inv s → step s = .next t → Inv t

/-- R170, R21: from a legal state no run ever ends in a fault, so no latch is read before it is written and no command gets
stuck, whatever the inputs. -/
def Obligations.NoRunFromALegalStateFaults : Prop :=
  ∀ s : State, Inv s → s.NeverFaults

/-- R38, R191: after reset `SAFE = 0` and there is one `IDLE` frame without latch values; every value of the register fields
and of `IE` is possible. -/
def Obligations.ResetLeavesTheBlockLockedAndIdle : Prop :=
  ∀ c : Cfg, c.wf = true →
    (∀ d, (State.resetWith c d).safe = false ∧ (State.resetWith c d).below = [] ∧
      (State.resetWith c d).top.phase = .idle ∧ (State.resetWith c d).top = Frame.fresh ∧
      (State.resetWith c d).cfg = c) ∧
    (∀ (r : RegBlock) (ie : Bool), r.wake.isSome = c.hasWake → r.pllDiv.toNat < 2 ^ c.divWidth →
      ∃ d, (State.resetWith c d).regs = r ∧ (State.resetWith c d).ie = ie)

/-- R190 to R192: a power cycle leads to the state after reset in the same configuration, from any state. -/
def Obligations.PowerCycleResetsTheBlock : Prop :=
  ∀ (s : State) (d : ResetDraw) (rest : List Input), s.inputs = .powerCycle d :: rest →
    step s = .next ((State.resetWith s.cfg d).setInputs rest)

/-- The named values of `State.reset` (DESIGN CHOICE, log 3 and log 4; the spec gives none): `T0cfg(VA)` and all draws
zero. -/
def Obligations.NamedResetStateHasZeroRegisters : Prop :=
  State.reset.cfg = t0cfg .va ∧ State.reset.regs = ⟨0, 0, none, 0, false⟩ ∧ State.reset.ie = false ∧
    State.reset.safe = false ∧ State.reset.below = [] ∧ State.reset.top = Frame.fresh ∧ State.reset.inputs = []

/-- R39, R192: no run, with power cycles or without, changes the configuration. -/
def Obligations.ConfigurationNeverChanges : Prop :=
  ∀ (s t : State) (n : Nat), run n s = .next t → t.cfg = s.cfg

/-- R99, R178, R180: no step but a power cycle changes the interrupt state that the thread context has or will have again. -/
def Obligations.ThreadInterruptStateIsKept : Prop :=
  ∀ s t : State, Inv s → s.noPowerNext → step s = .next t → t.threadIe = s.threadIe

/-- R195: a run that starts with one `IDLE` frame and is over ends with `SAFE = 0` and with `IE` at its launch value. -/
def Obligations.FinishedRunIsLockedWithItsLaunchIe : Prop :=
  ∀ (s t : State) (n : Nat), Inv s → s.below = [] → s.top.phase = .idle → s.noPower →
    run n s = .next t → t.Finished → t.safe = false ∧ t.ie = s.ie
end

