-- ==== Sys2Proof/Laws/State.lean ====
section
/-! SUPPORT. One lemma for each field of `State` and each update of it, all true by definition. -/

namespace Sys2Proof.Machine

@[simp] theorem State.setTop_cfg (s : State) (f : Frame) : (s.setTop f).cfg = s.cfg := rfl
@[simp] theorem State.setTop_regs (s : State) (f : Frame) : (s.setTop f).regs = s.regs := rfl
@[simp] theorem State.setTop_ie (s : State) (f : Frame) : (s.setTop f).ie = s.ie := rfl
@[simp] theorem State.setTop_safe (s : State) (f : Frame) : (s.setTop f).safe = s.safe := rfl
@[simp] theorem State.setTop_top (s : State) (f : Frame) : (s.setTop f).top = f := rfl
@[simp] theorem State.setTop_below (s : State) (f : Frame) : (s.setTop f).below = s.below := rfl
@[simp] theorem State.setTop_inputs (s : State) (f : Frame) : (s.setTop f).inputs = s.inputs := rfl
@[simp] theorem State.setTop_depth (s : State) (f : Frame) : (s.setTop f).depth = s.depth := rfl

@[simp] theorem State.setRegs_cfg (s : State) (r : RegBlock) : (s.setRegs r).cfg = s.cfg := rfl
@[simp] theorem State.setRegs_regs (s : State) (r : RegBlock) : (s.setRegs r).regs = r := rfl
@[simp] theorem State.setRegs_ie (s : State) (r : RegBlock) : (s.setRegs r).ie = s.ie := rfl
@[simp] theorem State.setRegs_safe (s : State) (r : RegBlock) : (s.setRegs r).safe = s.safe := rfl
@[simp] theorem State.setRegs_top (s : State) (r : RegBlock) : (s.setRegs r).top = s.top := rfl
@[simp] theorem State.setRegs_below (s : State) (r : RegBlock) : (s.setRegs r).below = s.below := rfl
@[simp] theorem State.setRegs_inputs (s : State) (r : RegBlock) : (s.setRegs r).inputs = s.inputs := rfl
@[simp] theorem State.setRegs_depth (s : State) (r : RegBlock) : (s.setRegs r).depth = s.depth := rfl

@[simp] theorem State.setIe_cfg (s : State) (b : Bool) : (s.setIe b).cfg = s.cfg := rfl
@[simp] theorem State.setIe_regs (s : State) (b : Bool) : (s.setIe b).regs = s.regs := rfl
@[simp] theorem State.setIe_ie (s : State) (b : Bool) : (s.setIe b).ie = b := rfl
@[simp] theorem State.setIe_safe (s : State) (b : Bool) : (s.setIe b).safe = s.safe := rfl
@[simp] theorem State.setIe_top (s : State) (b : Bool) : (s.setIe b).top = s.top := rfl
@[simp] theorem State.setIe_below (s : State) (b : Bool) : (s.setIe b).below = s.below := rfl
@[simp] theorem State.setIe_inputs (s : State) (b : Bool) : (s.setIe b).inputs = s.inputs := rfl
@[simp] theorem State.setIe_depth (s : State) (b : Bool) : (s.setIe b).depth = s.depth := rfl

@[simp] theorem State.setSafe_cfg (s : State) (b : Bool) : (s.setSafe b).cfg = s.cfg := rfl
@[simp] theorem State.setSafe_regs (s : State) (b : Bool) : (s.setSafe b).regs = s.regs := rfl
@[simp] theorem State.setSafe_ie (s : State) (b : Bool) : (s.setSafe b).ie = s.ie := rfl
@[simp] theorem State.setSafe_safe (s : State) (b : Bool) : (s.setSafe b).safe = b := rfl
@[simp] theorem State.setSafe_top (s : State) (b : Bool) : (s.setSafe b).top = s.top := rfl
@[simp] theorem State.setSafe_below (s : State) (b : Bool) : (s.setSafe b).below = s.below := rfl
@[simp] theorem State.setSafe_inputs (s : State) (b : Bool) : (s.setSafe b).inputs = s.inputs := rfl
@[simp] theorem State.setSafe_depth (s : State) (b : Bool) : (s.setSafe b).depth = s.depth := rfl

@[simp] theorem State.setInputs_cfg (s : State) (l : List Input) : (s.setInputs l).cfg = s.cfg := rfl
@[simp] theorem State.setInputs_regs (s : State) (l : List Input) : (s.setInputs l).regs = s.regs := rfl
@[simp] theorem State.setInputs_ie (s : State) (l : List Input) : (s.setInputs l).ie = s.ie := rfl
@[simp] theorem State.setInputs_safe (s : State) (l : List Input) : (s.setInputs l).safe = s.safe := rfl
@[simp] theorem State.setInputs_top (s : State) (l : List Input) : (s.setInputs l).top = s.top := rfl
@[simp] theorem State.setInputs_below (s : State) (l : List Input) : (s.setInputs l).below = s.below := rfl
@[simp] theorem State.setInputs_inputs (s : State) (l : List Input) : (s.setInputs l).inputs = l := rfl
@[simp] theorem State.setInputs_depth (s : State) (l : List Input) : (s.setInputs l).depth = s.depth := rfl

@[simp] theorem State.setPhase_cfg (s : State) (p : Phase) : (s.setPhase p).cfg = s.cfg := rfl
@[simp] theorem State.setPhase_regs (s : State) (p : Phase) : (s.setPhase p).regs = s.regs := rfl
@[simp] theorem State.setPhase_ie (s : State) (p : Phase) : (s.setPhase p).ie = s.ie := rfl
@[simp] theorem State.setPhase_safe (s : State) (p : Phase) : (s.setPhase p).safe = s.safe := rfl
@[simp] theorem State.setPhase_top (s : State) (p : Phase) : (s.setPhase p).top = { s.top with phase := p } := rfl
@[simp] theorem State.setPhase_below (s : State) (p : Phase) : (s.setPhase p).below = s.below := rfl
@[simp] theorem State.setPhase_inputs (s : State) (p : Phase) : (s.setPhase p).inputs = s.inputs := rfl

@[simp] theorem State.setInputs_self (s : State) : s.setInputs s.inputs = s := rfl

@[simp] theorem State.setInputs_setInputs (s : State) (k l : List Input) :
    (s.setInputs k).setInputs l = s.setInputs l := rfl

end Sys2Proof.Machine
end

