-- ==== Sys2Proof/Laws/Ops.lean ====
section
/-! SUPPORT. One lemma for each shared operation that says what it does where it goes on, and what must hold for that. -/

namespace Sys2Proof.Machine

@[simp] theorem andThen_next {α β : Type} (a : α) (k : α → Result β) : andThen (.next a) k = k a := rfl
@[simp] theorem andThen_fault {α β : Type} (f : Fault) (k : α → Result β) : andThen (.fault f) k = .fault f := rfl
@[simp] theorem andThen_refused {α β : Type} (r : Refusal) (k : α → Result β) :
    andThen (.refused r) k = .refused r := rfl

/-- What a sequence of two operations that goes on has done. -/
theorem andThen_eq_next {α β : Type} {o : Result α} {k : α → Result β} {b : β} :
    andThen o k = .next b ↔ ∃ a, o = .next a ∧ k a = .next b := by
  cases o <;> simp [andThen]

@[simp] theorem latch_some {α : Type} (n : Latch) (a : α) : latch n (some a) = .next a := rfl
@[simp] theorem latch_none {α : Type} (n : Latch) : latch n (none : Option α) = .fault (.unwrittenLatch n) := rfl

@[simp] theorem next_inj {α : Type} {a b : α} : (Host.Outcome.next a : Result α) = .next b ↔ b = a := by
  simp [eq_comm]

/-- A latch is read only where it holds a value (R21). -/
theorem latch_eq_next {α : Type} {n : Latch} {v : Option α} {a : α} : latch n v = .next a ↔ v = some a := by
  cases v <;> simp [latch]

/-- A gate register is read only where it exists (R31, R51). -/
theorem regRead_eq_next {g : GateReg} {s : State} {v : Byte} : regRead g s = .next v ↔ s.regs.gate g = some v := by
  unfold regRead
  cases s.regs.gate g <;> simp

/-- `protocolHeld` spelled out (R62). -/
theorem protocolHeld_iff {s : State} : s.protocolHeld = true ↔ s.safe = true ∧ s.ie = false := by
  simp [State.protocolHeld]

/-- A gate register is written only inside the protocol and where it exists, and then only it changes (R51, R62). -/
theorem regWrite_eq_next {g : GateReg} {v : Byte} {s t : State} :
    regWrite g v s = .next t ↔
      (s.safe = true ∧ s.ie = false) ∧ (∃ c, s.regs.gate g = some c) ∧ t = s.setRegs (s.regs.setGate g v) := by
  unfold regWrite
  split
  · rename_i h
    cases hg : s.regs.gate g <;> simp [protocolHeld_iff.1 h, eq_comm]
  · rename_i h
    simp [← protocolHeld_iff, h]

theorem writePllDiv_eq_next {d : BitVec 5} {s t : State} :
    writePllDiv d s = .next t ↔
      (s.safe = true ∧ s.ie = false) ∧ t = s.setRegs { s.regs with pllDiv := storedDiv s.cfg d } := by
  unfold writePllDiv
  split
  · rename_i h
    simp [protocolHeld_iff.1 h, eq_comm]
  · rename_i h
    simp [← protocolHeld_iff, h]

theorem writeSelPll_eq_next {b : Bool} {s t : State} :
    writeSelPll b s = .next t ↔
      (s.safe = true ∧ s.ie = false) ∧ t = s.setRegs { s.regs with selPll := b } := by
  unfold writeSelPll
  split
  · rename_i h
    simp [protocolHeld_iff.1 h, eq_comm]
  · rename_i h
    simp [← protocolHeld_iff, h]

/-! ### The register block by name -/

@[simp] theorem RegBlock.gate_cg0 (r : RegBlock) : r.gate .cg0 = some r.cg0 := rfl
@[simp] theorem RegBlock.gate_cg1 (r : RegBlock) : r.gate .cg1 = some r.cg1 := rfl
@[simp] theorem RegBlock.gate_wake (r : RegBlock) : r.gate .wake = r.wake := rfl
@[simp] theorem RegBlock.setGate_pllDiv (r : RegBlock) (g : GateReg) (v : Byte) : (r.setGate g v).pllDiv = r.pllDiv := by
  cases g <;> rfl
@[simp] theorem RegBlock.setGate_selPll (r : RegBlock) (g : GateReg) (v : Byte) : (r.setGate g v).selPll = r.selPll := by
  cases g <;> rfl

/-- A read after a write of the same register gives the value written. -/
theorem RegBlock.gate_setGate_same {r : RegBlock} {g : GateReg} {c : Byte} (v : Byte) (h : r.gate g = some c) :
    (r.setGate g v).gate g = some v := by
  cases g <;> simp_all [RegBlock.setGate, RegBlock.gate]

/-- A write leaves every other register alone. -/
theorem RegBlock.gate_setGate_other {r : RegBlock} {g k : GateReg} (v : Byte) (h : k ≠ g) :
    (r.setGate g v).gate k = r.gate k := by
  cases g <;> cases k <;> simp_all [RegBlock.setGate, RegBlock.gate]

/-- A write neither makes nor removes `WAKE` (R31). -/
@[simp] theorem RegBlock.setGate_wake_isSome (r : RegBlock) (g : GateReg) (v : Byte) :
    (r.setGate g v).wake.isSome = r.wake.isSome := by
  cases g <;> simp [RegBlock.setGate]

theorem RegBlock.setGate_setGate (r : RegBlock) (g : GateReg) (v w : Byte) :
    (r.setGate g v).setGate g w = r.setGate g w := by
  obtain ⟨a, b, c, d, e⟩ := r
  cases g <;> cases c <;> rfl

/-! ### Accepting a command -/

@[simp] theorem Frame.begin_cmd (f : Frame) (w : CmdWord) : (f.begin w).cmd = some w := rfl
@[simp] theorem Frame.begin_res (f : Frame) (w : CmdWord) : (f.begin w).res = f.res := rfl
@[simp] theorem Frame.begin_phase (f : Frame) (w : CmdWord) : (f.begin w).phase = .idle := rfl
@[simp] theorem Frame.gateCommand_phase (f : Frame) (g : GateReg) (m : Byte) (o : Bool) :
    (f.gateCommand g m o).phase = .ready := rfl

/-- A command is accepted exactly at `IDLE` with `SAFE = 0`, and then only the top frame changes (R91, R102). -/
theorem accept_eq_next {i : Instr} {s t : State} {l : Frame → Frame} :
    accept i s l = .next t ↔
      s.top.phase = .idle ∧ s.safe = false ∧ t = s.setTop (l (s.top.begin (encode i))) := by
  unfold accept
  split
  · simp_all
  · split
    · simp_all
    · simp_all only [next_inj, ne_eq, not_not, Bool.not_eq_true, true_and]

theorem accept_of_idle {i : Instr} {s : State} (l : Frame → Frame) (hp : s.top.phase = .idle) (hs : s.safe = false) :
    accept i s l = .next (s.setTop (l (s.top.begin (encode i)))) :=
  accept_eq_next.2 ⟨hp, hs, rfl⟩

/-! ### Taking an interrupt and returning from it -/

theorem preemptEnabled_iff {s : State} : s.preemptEnabled = true ↔ s.ie = true ∧ s.depth < s.cfg.nCtx := by
  simp [State.preemptEnabled]

/-- Everything that taking an interrupt can do (R177). -/
theorem preempt_eq_next {e : Bool} {s t : State} :
    preempt e s = .next t ↔ (s.ie = true ∧ s.depth < s.cfg.nCtx) ∧
      t = { s with ie := e, top := Frame.fresh, below := s.top :: s.below } := by
  unfold preempt
  split
  · rename_i h
    simp [preemptEnabled_iff.1 h, eq_comm]
  · rename_i h
    simp [← preemptEnabled_iff, h]

/-- Everything that the end of a handler can do (R178). -/
theorem handlerReturn_eq_next {s t : State} :
    handlerReturn s = .next t ↔ s.top.phase = .idle ∧ ∃ f fs, s.below = f :: fs ∧
      t = { s with ie := true, top := f, below := fs } := by
  unfold handlerReturn
  split
  · simp_all
  · split <;> simp_all [eq_comm]

theorem preempt_ne_fault (e : Bool) (s : State) (f : Fault) : preempt e s ≠ .fault f := by
  unfold preempt
  split <;> simp

theorem handlerReturn_ne_fault (s : State) (f : Fault) : handlerReturn s ≠ .fault f := by
  unfold handlerReturn
  split
  · simp
  · split <;> simp

end Sys2Proof.Machine
end

