-- ==== Sys2Proof/Laws/Protocol.lean ====
section
/-! SUPPORT. What each micro-operation does where it goes on (40_protocol.md R92 to R101), one lemma for each, and the phase
that enables it. -/

namespace Sys2Proof.Machine

theorem micro_of_idle {s : State} (h : s.top.phase = .idle) : micro s = .next s := by simp [micro, h]
theorem micro_of_ready {s : State} (h : s.top.phase = .ready) : micro s = sDisable s := by simp [micro, h]
theorem micro_of_masked {s : State} (h : s.top.phase = .masked) : micro s = sEnter s := by simp [micro, h]
theorem micro_of_opened {s : State} (h : s.top.phase = .opened) : micro s = atOpen s := by simp [micro, h]
theorem micro_of_loaded {s : State} (h : s.top.phase = .loaded) : micro s = sWrite s := by simp [micro, h]
theorem micro_of_stored1 {s : State} (h : s.top.phase = .stored1) : micro s = sWrSel s := by simp [micro, h]
theorem micro_of_stored {s : State} (h : s.top.phase = .stored) : micro s = sLeave s := by simp [micro, h]
theorem micro_of_closed {s : State} (h : s.top.phase = .closed) : micro s = sRestore s := by simp [micro, h]
theorem micro_of_get0 {s : State} (h : s.top.phase = .get0) : micro s = sRdDiv s := by simp [micro, h]
theorem micro_of_get1 {s : State} (h : s.top.phase = .get1) : micro s = sRdSel s := by simp [micro, h]

theorem sRead_eq_next {s t : State} :
    sRead s = .next t ↔ ∃ g v, s.top.tgt = some g ∧ s.regs.gate g = some v ∧
      t = s.setTop { s.top with tmp := some v, phase := .loaded } := by
  simp only [sRead, andThen_eq_next, latch_eq_next, regRead_eq_next]
  constructor
  · rintro ⟨g, hg, v, hv, ht⟩
    exact ⟨g, v, hg, hv, next_inj.1 ht⟩
  · rintro ⟨g, v, hg, hv, rfl⟩
    exact ⟨g, hg, v, hv, rfl⟩

theorem sWrite_eq_next {s t : State} :
    sWrite s = .next t ↔ ∃ g off cur mask, s.top.tgt = some g ∧ s.top.off = some off ∧ s.top.tmp = some cur ∧
      s.top.m = some mask ∧ (s.safe = true ∧ s.ie = false) ∧ (∃ c, s.regs.gate g = some c) ∧
      t = (s.setRegs (s.regs.setGate g (gateValue off cur mask))).setPhase .stored := by
  simp only [sWrite, andThen_eq_next, latch_eq_next, regWrite_eq_next]
  constructor
  · rintro ⟨g, hg, off, ho, cur, hc, mask, hm, u, ⟨hp, hx, rfl⟩, ht⟩
    exact ⟨g, off, cur, mask, hg, ho, hc, hm, hp, hx, next_inj.1 ht⟩
  · rintro ⟨g, off, cur, mask, hg, ho, hc, hm, hp, hx, rfl⟩
    exact ⟨g, hg, off, ho, cur, hc, mask, hm, _, ⟨hp, hx, rfl⟩, rfl⟩

theorem sWrDiv_eq_next {s t : State} :
    sWrDiv s = .next t ↔ ∃ d, s.top.div = some d ∧ (s.safe = true ∧ s.ie = false) ∧
      t = (s.setRegs { s.regs with pllDiv := storedDiv s.cfg d }).setPhase .stored1 := by
  simp only [sWrDiv, andThen_eq_next, latch_eq_next, writePllDiv_eq_next]
  constructor
  · rintro ⟨d, hd, u, ⟨hp, rfl⟩, ht⟩
    exact ⟨d, hd, hp, next_inj.1 ht⟩
  · rintro ⟨d, hd, hp, rfl⟩
    exact ⟨d, hd, _, ⟨hp, rfl⟩, rfl⟩

theorem sWrSel_eq_next {s t : State} :
    sWrSel s = .next t ↔ ∃ b, s.top.sel = some b ∧ (s.safe = true ∧ s.ie = false) ∧
      t = (s.setRegs { s.regs with selPll := b }).setPhase .stored := by
  simp only [sWrSel, andThen_eq_next, latch_eq_next, writeSelPll_eq_next]
  constructor
  · rintro ⟨d, hd, u, ⟨hp, rfl⟩, ht⟩
    exact ⟨d, hd, hp, next_inj.1 ht⟩
  · rintro ⟨d, hd, hp, rfl⟩
    exact ⟨d, hd, _, ⟨hp, rfl⟩, rfl⟩

theorem sRestore_eq_next {s t : State} :
    sRestore s = .next t ↔ ∃ b, s.top.saved = some b ∧ t = (s.setPhase .idle).setIe b := by
  simp only [sRestore, andThen_eq_next, latch_eq_next, next_inj]

theorem sRdSel_eq_next {s t : State} :
    sRdSel s = .next t ↔ ∃ d, s.top.tdiv = some d ∧
      t = s.setTop { s.top with res := some (hclkOf d s.regs.selPll), phase := .idle } := by
  simp only [sRdSel, andThen_eq_next, latch_eq_next, next_inj]

/-- At `OPEN` the kind chooses the micro-operation (R104). -/
theorem atOpen_eq_next {s t : State} :
    atOpen s = .next t ↔
      (s.top.kind = some .gate ∧ sRead s = .next t) ∨ (s.top.kind = some .set ∧ sWrDiv s = .next t) := by
  rcases hk : s.top.kind with _ | k
  · simp [atOpen, hk]
  · cases k <;> simp [atOpen, hk]

@[simp] theorem microRun_zero (s : State) : microRun 0 s = .next s := rfl
theorem microRun_succ (n : Nat) (s : State) : microRun (n + 1) s = andThen (micro s) (microRun n) := rfl

/-- An `IDLE` frame stays as it is however many micro-operations are asked for. -/
theorem microRun_of_idle {s : State} (h : s.top.phase = .idle) (n : Nat) : microRun n s = .next s := by
  induction n with
  | zero => rfl
  | succ n ih => rw [microRun_succ, micro_of_idle h, andThen_next, ih]

end Sys2Proof.Machine
end

