-- ==== Sys2Proof/Laws/Step.lean ====
section
/-! SUPPORT. What one step can do, said once; and runs of steps. -/

namespace Sys2Proof.Machine

/-- Everything a step that goes on can have been: a micro-operation of the top frame (with or without using up an `advance`),
an accepted command, a taken interrupt, the end of a handler, or a power cycle. -/
theorem step_cases {s t : State} (h : step s = .next t) :
    ((s.inputs = [] ∨ ∃ w rest, s.inputs = .command w :: rest ∧ s.top.phase ≠ .idle) ∧ micro s = .next t) ∨
    (∃ rest, s.inputs = .advance :: rest ∧ micro (s.setInputs rest) = .next t) ∨
    (∃ w rest i, s.inputs = .command w :: rest ∧ s.top.phase = .idle ∧ decode w = .ok i ∧
      exec i (s.setInputs rest) = .next t) ∨
    (∃ e rest, s.inputs = .preempt e :: rest ∧ preempt e (s.setInputs rest) = .next t) ∨
    (∃ rest, s.inputs = .handlerEnd :: rest ∧ handlerReturn (s.setInputs rest) = .next t) ∨
    (∃ d rest, s.inputs = .powerCycle d :: rest ∧ t = powerOn d (s.setInputs rest)) := by
  unfold step nextStep at h
  split at h
  · exact .inl ⟨.inl ‹_›, h⟩
  · rename_i w rest hi
    split at h
    · rename_i hp
      unfold present at h
      split at h
      · exact .inr (.inr (.inl ⟨w, rest, _, hi, hp, ‹_›, h⟩))
      · simp at h
    · exact .inl ⟨.inr ⟨w, rest, hi, ‹_›⟩, h⟩
  · exact .inr (.inl ⟨_, ‹_›, h⟩)
  · exact .inr (.inr (.inr (.inl ⟨_, _, ‹_›, h⟩)))
  · exact .inr (.inr (.inr (.inr (.inl ⟨_, ‹_›, h⟩))))
  · exact .inr (.inr (.inr (.inr (.inr ⟨_, _, ‹_›, next_inj.1 h⟩))))

@[simp] theorem run_zero (s : State) : run 0 s = .next s := rfl

theorem run_succ (n : Nat) (s : State) : run (n + 1) s = andThen (step s) (run n) := rfl

/-- One step of the host's run. -/
theorem host_run_succ (M : Host.Core) (n : Nat) (s : M.State) :
    M.run (n + 1) s = match M.step s with
      | .next t => M.run n t
      | .fault r => .fault r
      | .refused r => .refused r := rfl

/-- A run of the model is the host's run of `Sys2Proof.core`. -/
theorem core_run_eq (n : Nat) (s : State) : Host.Core.run Sys2Proof.core n s = run n s := by
  induction n generalizing s with
  | zero => rfl
  | succ n ih =>
    refine (host_run_succ Sys2Proof.core n s).trans ?_
    rw [run_succ]
    cases h : Sys2Proof.core.step s with
    | next t =>
      have h' : step s = .next t := h
      rw [h']
      exact ih t
    | fault r =>
      have h' : step s = .fault r := h
      rw [h']
      rfl
    | refused r =>
      have h' : step s = .refused r := h
      rw [h']
      rfl

/-- A property that every step keeps holds at the end of every run. -/
theorem run_induction {P : State → Prop} (hstep : ∀ s t, P s → step s = .next t → P t) (n : Nat) {s t : State}
    (hs : P s) (h : run n s = .next t) : P t := by
  induction n generalizing s with
  | zero => exact next_inj.1 h ▸ hs
  | succ n ih =>
    rw [run_succ, andThen_eq_next] at h
    obtain ⟨u, hu, h⟩ := h
    exact ih (hstep s u hs hu) h

end Sys2Proof.Machine
end

