-- ==== Sys2Proof/Laws/Commands.lean ====
section
/-! SUPPORT. What each meaning answers at an `IDLE` frame of a locked block, and what the micro-operation sequences `GATE`,
`SET` and `GET` do as a whole (40_protocol.md R90). -/

namespace Sys2Proof.Machine

theorem exec_gate0_of_idle {s : State} (mask : Byte) (off : Bool) (hp : s.top.phase = .idle) (hs : s.safe = false) :
    exec (.gate0 mask off) s =
      .next (s.setTop ((s.top.begin (encode (.gate0 mask off))).gateCommand .cg0 mask off)) := by
  rw [exec, execGate0, accept_of_idle _ hp hs]

theorem exec_gate1_of_idle {s : State} (mask : Byte) (off : Bool) (hp : s.top.phase = .idle) (hs : s.safe = false) :
    exec (.gate1 mask off) s =
      .next (s.setTop ((s.top.begin (encode (.gate1 mask off))).gateCommand .cg1 mask off)) := by
  rw [exec, execGate1, accept_of_idle _ hp hs]

theorem exec_gateid_of_idle {s : State} (id : Identity) (off : Bool) (hp : s.top.phase = .idle)
    (hs : s.safe = false) :
    exec (.gateid id off) s = .next (s.setTop (match resolve s.cfg id with
      | some r =>
        { s.top.begin (encode (.gateid id off)) with bit := some r.bit, res := some (r.bit.setWidth 32) }.gateCommand
          r.reg (maskOf r.bit) off
      | none => { s.top.begin (encode (.gateid id off)) with bit := some 0, res := some 0 })) := by
  rw [exec, execGateId]
  refine (accept_of_idle _ hp hs).trans ?_
  cases resolve s.cfg id <;> rfl

theorem exec_sethclk_of_idle {s : State} (hz : BitVec 32) (hp : s.top.phase = .idle) (hs : s.safe = false) :
    exec (.sethclk hz) s = .next (s.setTop (match quantize hz with
      | some q =>
        { s.top.begin (encode (.sethclk hz)) with
          div := some q.div, sel := some q.sel, res := some 0, kind := some .set, phase := .ready }
      | none => { s.top.begin (encode (.sethclk hz)) with res := some (failWord s.cfg) })) := by
  rw [exec, execSetHclk]
  refine (accept_of_idle _ hp hs).trans ?_
  cases quantize hz <;> rfl

theorem exec_gethclk_of_idle {s : State} (hp : s.top.phase = .idle) (hs : s.safe = false) :
    exec .gethclk s = .next (s.setTop { s.top.begin (encode .gethclk) with kind := some .get, phase := .get0 }) := by
  rw [exec, execGetHclk, accept_of_idle _ hp hs]

/-- A command that goes on was accepted: its frame was `IDLE`, the block locked, and only the top frame changed, to some
frame whose `CMD` is the word (R91). -/
theorem exec_eq_next {i : Instr} {s t : State} (h : exec i s = .next t) :
    s.top.phase = .idle ∧ s.safe = false ∧ t = s.setTop t.top ∧ t.top.cmd = some (encode i) := by
  cases i with
  | gate0 m o =>
    simp only [exec, execGate0, accept_eq_next] at h
    obtain ⟨hp, hs, rfl⟩ := h
    exact ⟨hp, hs, rfl, rfl⟩
  | gate1 m o =>
    simp only [exec, execGate1, accept_eq_next] at h
    obtain ⟨hp, hs, rfl⟩ := h
    exact ⟨hp, hs, rfl, rfl⟩
  | gateid id o =>
    simp only [exec, execGateId, accept_eq_next] at h
    obtain ⟨hp, hs, rfl⟩ := h
    refine ⟨hp, hs, rfl, ?_⟩
    cases resolve s.cfg id <;> rfl
  | sethclk hz =>
    simp only [exec, execSetHclk, accept_eq_next] at h
    obtain ⟨hp, hs, rfl⟩ := h
    refine ⟨hp, hs, rfl, ?_⟩
    cases quantize hz <;> rfl
  | gethclk =>
    simp only [exec, execGetHclk, accept_eq_next] at h
    obtain ⟨hp, hs, rfl⟩ := h
    exact ⟨hp, hs, rfl, rfl⟩

/-- The `GATE` sequence from `READY` (R90, R130). -/
theorem microRun_gate {s : State} {g : GateReg} {mask cur : Byte} {off : Bool} (hk : s.top.kind = some .gate)
    (hg : s.top.tgt = some g) (hm : s.top.m = some mask) (ho : s.top.off = some off)
    (hc : s.regs.gate g = some cur) (hp : s.top.phase = .ready) :
    microRun 6 s = .next { s with
      safe := false
      regs := s.regs.setGate g (gateValue off cur mask)
      top := { s.top with saved := some s.ie, tmp := some cur, phase := .idle } } := by
  simp [microRun, micro, hp, sDisable, sEnter, atOpen, hk, hg, hm, ho, hc, sRead, regRead, sWrite, regWrite,
    State.protocolHeld, sLeave, sRestore, State.setTop, State.setPhase, State.setIe, State.setSafe, State.setRegs]

/-- The flags on the way of the `GATE` sequence. -/
theorem regionTimeline_gate {s : State} {g : GateReg} {mask cur : Byte} {off : Bool} (hk : s.top.kind = some .gate)
    (hg : s.top.tgt = some g) (hm : s.top.m = some mask) (ho : s.top.off = some off)
    (hc : s.regs.gate g = some cur) (hp : s.top.phase = .ready) (hs : s.safe = false) : s.RegionTimeline := by
  intro k h1 h5
  have h : k = 1 ∨ k = 2 ∨ k = 3 ∨ k = 4 ∨ k = 5 := by omega
  rcases h with rfl | rfl | rfl | rfl | rfl <;>
    simp [microRun, micro, hp, sDisable, sEnter, atOpen, hk, hg, hm, ho, hc, sRead, regRead, sWrite, regWrite,
      State.protocolHeld, sLeave, State.setTop, State.setPhase, State.setIe, State.setSafe, State.setRegs, hs]

/-- The `SET` sequence from `READY` (R90). -/
theorem microRun_set {s : State} {d : BitVec 5} {b : Bool} (hk : s.top.kind = some .set) (hd : s.top.div = some d)
    (hb : s.top.sel = some b) (hp : s.top.phase = .ready) :
    microRun 6 s = .next { s with
      safe := false
      regs := { s.regs with pllDiv := storedDiv s.cfg d, selPll := b }
      top := { s.top with saved := some s.ie, phase := .idle } } := by
  simp [microRun, micro, hp, sDisable, sEnter, atOpen, hk, hd, hb, sWrDiv, writePllDiv, sWrSel, writeSelPll,
    State.protocolHeld, sLeave, sRestore, State.setTop, State.setPhase, State.setIe, State.setSafe, State.setRegs]

/-- The flags on the way of the `SET` sequence. -/
theorem regionTimeline_set {s : State} {d : BitVec 5} {b : Bool} (hk : s.top.kind = some .set)
    (hd : s.top.div = some d) (hb : s.top.sel = some b) (hp : s.top.phase = .ready) (hs : s.safe = false) :
    s.RegionTimeline := by
  intro k h1 h5
  have h : k = 1 ∨ k = 2 ∨ k = 3 ∨ k = 4 ∨ k = 5 := by omega
  rcases h with rfl | rfl | rfl | rfl | rfl <;>
    simp [microRun, micro, hp, sDisable, sEnter, atOpen, hk, hd, hb, sWrDiv, writePllDiv, sWrSel, writeSelPll,
      State.protocolHeld, sLeave, State.setTop, State.setPhase, State.setIe, State.setSafe, State.setRegs, hs]

/-- The `GET` sequence from `GET0` (R90, R155). -/
theorem microRun_get {s : State} (hp : s.top.phase = .get0) :
    microRun 6 s = .next { s with top :=
      { s.top with
        tdiv := some s.regs.pllDiv, res := some (hclkOf s.regs.pllDiv s.regs.selPll), phase := .idle } } := by
  simp [microRun, micro, hp, sRdDiv, sRdSel, State.setTop]

end Sys2Proof.Machine
end

