-- ==== Sys2Proof/Laws/Encoding.lean ====
section
/-! SUPPORT. The bits of a command word and the fields read back from it (30_encoding.md R71 to R75). -/

namespace Sys2Proof

/-- Two words are equal when their bits are. -/
theorem bit_ext {n : Nat} {a b : BitVec n} (h : ∀ k, k < n → a.getLsbD k = b.getLsbD k) : a = b :=
  BitVec.eq_of_getLsbD_eq fun i hi => h i hi

/-- Every bit of a format M word (R72). -/
theorem encodeM_bit (op : BitVec 8) (m : Byte) (o : Bool) (k : Nat) :
    (encodeM op m o).getLsbD k =
      if k < 8 then m.getLsbD k else if k = 8 then o else if k < 32 then false else op.getLsbD (k - 32) := by
  simp only [encodeM, BitVec.getLsbD_append, BitVec.getLsbD_ofBool]
  by_cases h1 : k < 8
  · simp [h1]
  · by_cases h2 : k = 8
    · simp [h2]
    · by_cases h3 : k < 32
      · have : ¬ (k - 8 < 1) := by omega
        have h4 : k - 8 - 1 < 23 := by omega
        simp [h1, h2, h3, this, h4]
      · have : ¬ (k - 8 < 1) := by omega
        have h4 : ¬ (k - 8 - 1 < 23) := by omega
        have h5 : k - 8 - 1 - 23 = k - 32 := by omega
        simp [h1, h2, h3, this, h4, h5]

/-- Every bit of a format I word (R73). -/
theorem encodeI_bit (op : BitVec 8) (m : Identity) (o : Bool) (k : Nat) :
    (encodeI op m o).getLsbD k =
      if k < 16 then m.getLsbD k else if k = 16 then o else if k < 32 then false else op.getLsbD (k - 32) := by
  simp only [encodeI, BitVec.getLsbD_append, BitVec.getLsbD_ofBool]
  by_cases h1 : k < 16
  · simp [h1]
  · by_cases h2 : k = 16
    · simp [h2]
    · by_cases h3 : k < 32
      · have : ¬ (k - 16 < 1) := by omega
        have h4 : k - 16 - 1 < 15 := by omega
        simp [h1, h2, h3, this, h4]
      · have : ¬ (k - 16 < 1) := by omega
        have h4 : ¬ (k - 16 - 1 < 15) := by omega
        have h5 : k - 16 - 1 - 15 = k - 32 := by omega
        simp [h1, h2, h3, this, h4, h5]

/-- Every bit of a format F or N word (R74, R75). -/
theorem encodeF_bit (op : BitVec 8) (x : BitVec 32) (k : Nat) :
    (encodeF op x).getLsbD k = if k < 32 then x.getLsbD k else op.getLsbD (k - 32) := by
  simp only [encodeF, BitVec.getLsbD_append]

/-- The opcode is `CMD[39:32]` (R71). -/
theorem opcodeOf_bit (w : CmdWord) (k : Nat) : (opcodeOf w).getLsbD k = (decide (k < 8) && w.getLsbD (32 + k)) := by
  simp [opcodeOf, BitVec.getLsbD_extractLsb']

/-- The opcode field of a format M word. -/
theorem opcodeOf_encodeM (op : BitVec 8) (m : Byte) (o : Bool) : opcodeOf (encodeM op m o) = op := by
  apply bit_ext; intro k hk
  have h1 : ¬ (32 + k < 8) := by omega
  have h2 : ¬ (32 + k = 8) := by omega
  have h3 : ¬ (32 + k < 32) := by omega
  rw [opcodeOf_bit, encodeM_bit]
  simp only [hk, h1, h2, h3, decide_true, Bool.true_and, if_false, Nat.add_sub_cancel_left]

/-- The opcode field of a format I word. -/
theorem opcodeOf_encodeI (op : BitVec 8) (m : Identity) (o : Bool) : opcodeOf (encodeI op m o) = op := by
  apply bit_ext; intro k hk
  have h1 : ¬ (32 + k < 16) := by omega
  have h2 : ¬ (32 + k = 16) := by omega
  have h3 : ¬ (32 + k < 32) := by omega
  rw [opcodeOf_bit, encodeI_bit]
  simp only [hk, h1, h2, h3, decide_true, Bool.true_and, if_false, Nat.add_sub_cancel_left]

/-- The opcode field of a format F or N word. -/
theorem opcodeOf_encodeF (op : BitVec 8) (x : BitVec 32) : opcodeOf (encodeF op x) = op := by
  apply bit_ext; intro k hk
  have h3 : ¬ (32 + k < 32) := by omega
  rw [opcodeOf_bit, encodeF_bit]
  simp only [hk, h3, decide_true, Bool.true_and, if_false, Nat.add_sub_cancel_left]

/-- The fields of a format M word read back. -/
theorem decodeM_encodeM (op : BitVec 8) (m : Byte) (o : Bool) (mk : Byte → Bool → Instr) :
    decodeM (encodeM op m o) mk = .ok (mk m o) := by
  have h1 : (encodeM op m o).extractLsb' 9 23 = 0#23 := by
    apply bit_ext; intro k hk
    have h1 : ¬ (9 + k < 8) := by omega
    have h2 : ¬ (9 + k = 8) := by omega
    have h3 : (9 + k < 32) := by omega
    simp only [BitVec.getLsbD_extractLsb', encodeM_bit, hk, h1, h2, h3, decide_true, Bool.true_and, if_false, if_true,
      BitVec.getLsbD_zero]
  have h2 : (encodeM op m o).extractLsb' 0 8 = m := by
    apply bit_ext; intro k hk
    simp only [BitVec.getLsbD_extractLsb', encodeM_bit, hk, Nat.zero_add, decide_true, Bool.true_and, if_true]
  have h3 : (encodeM op m o).getLsbD 8 = o := by rw [encodeM_bit]; simp
  simp only [decodeM, h1, h2, h3, if_true]

/-- The fields of a format I word read back. -/
theorem decodeI_encodeI (op : BitVec 8) (m : Identity) (o : Bool) (mk : Identity → Bool → Instr) :
    decodeI (encodeI op m o) mk = .ok (mk m o) := by
  have h1 : (encodeI op m o).extractLsb' 17 15 = 0#15 := by
    apply bit_ext; intro k hk
    have h1 : ¬ (17 + k < 16) := by omega
    have h2 : ¬ (17 + k = 16) := by omega
    have h3 : (17 + k < 32) := by omega
    simp only [BitVec.getLsbD_extractLsb', encodeI_bit, hk, h1, h2, h3, decide_true, Bool.true_and, if_false, if_true,
      BitVec.getLsbD_zero]
  have h2 : (encodeI op m o).extractLsb' 0 16 = m := by
    apply bit_ext; intro k hk
    simp only [BitVec.getLsbD_extractLsb', encodeI_bit, hk, Nat.zero_add, decide_true, Bool.true_and, if_true]
  have h3 : (encodeI op m o).getLsbD 16 = o := by rw [encodeI_bit]; simp
  simp only [decodeI, h1, h2, h3, if_true]

/-- The operand field of a format F or N word. -/
theorem low_encodeF (op : BitVec 8) (x : BitVec 32) : (encodeF op x).extractLsb' 0 32 = x := by
  apply bit_ext; intro k hk
  simp only [BitVec.getLsbD_extractLsb', encodeF_bit, hk, Nat.zero_add, decide_true, Bool.true_and, if_true]

/-- A bit of the opcode is the bit of the word above bit 31. -/
theorem bit_of_opcode {w : CmdWord} {op : BitVec 8} (h : opcodeOf w = op) {k : Nat} (hk : k < 40) (h2 : ¬ k < 32) :
    op.getLsbD (k - 32) = w.getLsbD k := by
  rw [← h, opcodeOf_bit]
  have : k - 32 < 8 := by omega
  have h3 : 32 + (k - 32) = k := by omega
  simp [this, h3]

/-- A bit of a zero field is 0. -/
theorem zero_bit {w : CmdWord} {a n k : Nat} (h : w.extractLsb' a n = 0#n) (h1 : a ≤ k) (h2 : k < a + n) :
    w.getLsbD k = false := by
  have := congrArg (fun x => x.getLsbD (k - a)) h
  simp only [BitVec.getLsbD_extractLsb', BitVec.getLsbD_zero] at this
  have h3 : k - a < n := by omega
  have h4 : a + (k - a) = k := by omega
  simpa [h3, h4] using this

/-- A word with zero reserved bits is the format M word of its fields. -/
theorem encodeM_decode {w : CmdWord} {op : BitVec 8} (h : opcodeOf w = op) (hz : w.extractLsb' 9 23 = 0#23) :
    encodeM op (w.extractLsb' 0 8) (w.getLsbD 8) = w := by
  apply bit_ext; intro k hk
  rw [encodeM_bit]
  split
  · simp only [BitVec.getLsbD_extractLsb', Nat.zero_add, *, decide_true, Bool.true_and]
  · split
    · simp [*]
    · split
      · exact (zero_bit hz (by omega) (by omega)).symm
      · exact bit_of_opcode h hk ‹_›
/-- A word with zero reserved bits is the format I word of its fields. -/
theorem encodeI_decode {w : CmdWord} {op : BitVec 8} (h : opcodeOf w = op) (hz : w.extractLsb' 17 15 = 0#15) :
    encodeI op (w.extractLsb' 0 16) (w.getLsbD 16) = w := by
  apply bit_ext; intro k hk
  rw [encodeI_bit]
  split
  · simp only [BitVec.getLsbD_extractLsb', Nat.zero_add, *, decide_true, Bool.true_and]
  · split
    · simp [*]
    · split
      · exact (zero_bit hz (by omega) (by omega)).symm
      · exact bit_of_opcode h hk ‹_›
/-- A word is its opcode and its operand field. -/
theorem encodeF_decode {w : CmdWord} {op : BitVec 8} (h : opcodeOf w = op) :
    encodeF op (w.extractLsb' 0 32) = w := by
  apply bit_ext; intro k hk
  rw [encodeF_bit]
  split
  · simp only [BitVec.getLsbD_extractLsb', Nat.zero_add, *, decide_true, Bool.true_and]
  · exact bit_of_opcode h hk ‹_›


end Sys2Proof
end

