-- ==== Sys2Proof/Laws/Resolver.lean ====
section
/-! SUPPORT. Facts about table lookup and the configuration check (41_resolver.md R110, R116). -/

namespace Sys2Proof

/-- An identity without an entry has value 0 (R110). -/
theorem Table.lookup_eq_zero {t : Table} {id : Identity} (h : ∀ e ∈ t, e.id ≠ id) : t.lookup id = 0 := by
  induction t with
  | nil => rfl
  | cons e rest ih =>
    have he : e.id ≠ id := h e (by simp)
    simp only [Table.lookup, he, if_false]
    exact ih fun f hf => h f (by simp [hf])

/-- An identity with a non-zero value has an entry. -/
theorem Table.exists_entry {t : Table} {id : Identity} (h : t.lookup id ≠ 0) : ∃ e ∈ t, e.id = id := by
  by_contra hn
  push Not at hn
  exact h (Table.lookup_eq_zero hn)

/-- The conjuncts of the configuration check. -/
theorem Cfg.wf_iff {c : Cfg} :
    c.wf = true ↔ c.rangesOk = true ∧ c.offsetsDistinct = true ∧ c.noCollision = true ∧
      (c.t0.oneBitEach = true ∧ c.t1.oneBitEach = true ∧ c.tw.oneBitEach = true) ∧
      c.boundBelowEnd = true ∧ c.wakeTableOk = true := by
  simp only [Cfg.wf, Bool.and_eq_true]
  tauto

/-- An identity that some table binds is in the list of bound identities. -/
theorem Cfg.mem_boundIds {c : Cfg} {id : Identity} (h : c.ownersOf id ≠ 0) : id ∈ c.boundIds := by
  have hx : c.t0.lookup id ≠ 0 ∨ c.t1.lookup id ≠ 0 ∨ c.tw.lookup id ≠ 0 := by
    by_contra hn
    push Not at hn
    exact h (by simp [Cfg.ownersOf, hn.1, hn.2.1, hn.2.2])
  simp only [Cfg.boundIds, List.mem_map, List.mem_append]
  rcases hx with h | h | h <;> obtain ⟨e, he, rfl⟩ := Table.exists_entry h <;> exact ⟨e, by tauto, rfl⟩

/-- The wake group is the target only where it exists (R118 step 4). -/
theorem resolve_wake {c : Cfg} {id : Identity} {r : Resolved} (h : resolve c id = some r) :
    r.reg = .wake → c.hasWake = true := by
  unfold resolve at h
  repeat' split at h
  all_goals cases h
  all_goals simp_all

end Sys2Proof
end

