-- ==== Sys2Proof/Laws/Registers.lean ====
section
/-! SUPPORT. The register block by address (20_memory.md R50, R51): every register that exists is found at its own address
and at no other, and what a byte access by address can do. The block has no list of memory cells, so its form is kept when
`WAKE` stays present or absent and `pll_div` stays in its width. -/

namespace Sys2Proof.Machine

/-- Different registers have different addresses in a well-formed configuration (R50). -/
theorem addrOf_ne {c : Cfg} (h : c.wf = true) {r q : Reg} (hne : r ≠ q) : addrOf c r ≠ addrOf c q := by
  have hd := (Cfg.wf_iff.1 h).2.1
  simp only [Cfg.offsetsDistinct, Cfg.offsets, decide_eq_true_eq, List.nodup_cons, List.mem_cons, List.not_mem_nil,
    or_false, not_or] at hd
  obtain ⟨⟨a, b, c1, d⟩, ⟨e, f, g⟩, ⟨i, j⟩, k, -⟩ := hd
  rcases r with ⟨⟨⟩⟩ | _ | _ <;> rcases q with ⟨⟨⟩⟩ | _ | _ <;> simp_all only [addrOf, ne_eq, not_true_eq_false] <;>
    omega

/-- The register found at an address has that address. -/
theorem addrOf_of_regAt {c : Cfg} {a : Nat} {r : Reg} (h : regAt c a = some r) : a = addrOf c r := by
  unfold regAt at h
  repeat' split at h
  all_goals cases h
  all_goals simp_all

/-- A register that exists is found at its address (R28, R50). -/
theorem regAt_addrOf {c : Cfg} (h : c.wf = true) (r : Reg) (hw : r = .gate .wake → c.hasWake = true) :
    regAt c (addrOf c r) = some r := by
  have hn : ∀ p q : Reg, p ≠ q → addrOf c p ≠ addrOf c q := fun _ _ => addrOf_ne h
  unfold regAt
  rcases r with ⟨⟨⟩⟩ | _ | _
  · rw [if_pos rfl]
  · rw [if_neg (hn _ _ (by simp)), if_pos rfl]
  · rw [if_neg (hn _ _ (by simp)), if_neg (hn _ _ (by simp)), if_pos (by simp [hw rfl])]
  · rw [if_neg (hn _ _ (by simp)), if_neg (hn _ _ (by simp)), if_neg (by simp; intro _; exact hn _ _ (by simp)),
      if_pos rfl]
  · rw [if_neg (hn _ _ (by simp)), if_neg (hn _ _ (by simp)), if_neg (by simp; intro _; exact hn _ _ (by simp)),
      if_neg (hn _ _ (by simp)), if_pos rfl]

/-- Two states in one configuration read the same at an address when the gate register there is the same. -/
theorem memRead_congr {s t : State} (hc : t.cfg = s.cfg) (a : Nat)
    (h : ∀ g, a = addrOf s.cfg (.gate g) → t.regs.gate g = s.regs.gate g) : memRead a t = memRead a s := by
  simp only [memRead, hc]
  cases hr : regAt s.cfg a with
  | none => rfl
  | some r =>
    cases r with
    | gate k => simp [regRead, h k (addrOf_of_regAt hr)]
    | pllDiv => rfl
    | cfgCtrl => rfl

/-- Everything that a byte write by address can do (R51, R62). -/
theorem memWrite_eq_next {s t : State} {a : Nat} {v : Byte} :
    memWrite a v s = .next t ↔ ∃ g, regAt s.cfg a = some (.gate g) ∧ (s.safe = true ∧ s.ie = false) ∧
      (∃ c, s.regs.gate g = some c) ∧ t = s.setRegs (s.regs.setGate g v) := by
  unfold memWrite
  cases hr : regAt s.cfg a with
  | none => simp
  | some r =>
    cases r with
    | gate g => simp [regWrite_eq_next]
    | pllDiv => simp
    | cfgCtrl => simp

/-- A stored divider fits the width of `pll_div` (R32, R53). -/
theorem storedDiv_lt (c : Cfg) (d : BitVec 5) : (storedDiv c d).toNat < 2 ^ c.divWidth := by
  simp only [storedDiv, BitVec.toNat_ofNat]
  exact (Nat.mod_le _ _).trans_lt (Nat.mod_lt _ (by positivity))

end Sys2Proof.Machine
end

