-- ==== Sys2Proof/Laws/Legal.lean ====
section
/-! SUPPORT. Small facts about legal states and about what a micro-operation cannot touch. -/

namespace Sys2Proof.Machine

/-- The invariant does not speak of the inputs. -/
theorem inv_setInputs {s : State} (l : List Input) (h : Inv s) : Inv (s.setInputs l) :=
  ⟨h.1, h.2, h.3, h.4, h.5, h.6, h.7, h.8, h.9⟩

/-- In a legal state a gate register that the configuration has holds a byte. -/
theorem Inv.gate_some {s : State} (h : Inv s) {g : GateReg} (hg : g = .wake → s.cfg.hasWake = true) :
    ∃ v, s.regs.gate g = some v := by
  cases g with
  | cg0 => exact ⟨_, rfl⟩
  | cg1 => exact ⟨_, rfl⟩
  | wake => exact Option.isSome_iff_exists.1 (h.wakeIff.trans (hg rfl))

/-- A micro-operation touches neither the inputs nor the configuration nor a suspended frame (R23, R39). -/
theorem micro_frame {s t : State} (hm : micro s = .next t) :
    t.inputs = s.inputs ∧ t.cfg = s.cfg ∧ t.below = s.below := by
  rcases hp : s.top.phase
  case idle => rw [micro_of_idle hp] at hm; obtain rfl := next_inj.1 hm; simp
  case ready => rw [micro_of_ready hp] at hm; obtain rfl := next_inj.1 hm; simp
  case masked => rw [micro_of_masked hp] at hm; obtain rfl := next_inj.1 hm; simp
  case opened =>
    rw [micro_of_opened hp, atOpen_eq_next] at hm
    rcases hm with ⟨-, hm⟩ | ⟨-, hm⟩
    · obtain ⟨g, v, hg1, hv, rfl⟩ := sRead_eq_next.1 hm; simp
    · obtain ⟨d, hd, -, rfl⟩ := sWrDiv_eq_next.1 hm; simp
  case loaded =>
    rw [micro_of_loaded hp] at hm
    obtain ⟨g, off, cur, mask, -, -, -, -, -, -, rfl⟩ := sWrite_eq_next.1 hm
    simp
  case stored1 => rw [micro_of_stored1 hp] at hm; obtain ⟨b, -, -, rfl⟩ := sWrSel_eq_next.1 hm; simp
  case stored => rw [micro_of_stored hp] at hm; obtain rfl := next_inj.1 hm; simp
  case closed => rw [micro_of_closed hp] at hm; obtain ⟨b, -, rfl⟩ := sRestore_eq_next.1 hm; simp
  case get0 => rw [micro_of_get0 hp] at hm; obtain rfl := next_inj.1 hm; simp
  case get1 => rw [micro_of_get1 hp] at hm; obtain ⟨b, -, rfl⟩ := sRdSel_eq_next.1 hm; simp

/-- A step makes up no inputs. -/
theorem step_inputs {s t : State} (hst : step s = .next t) : ∀ i ∈ t.inputs, i ∈ s.inputs := by
  rcases step_cases hst with ⟨-, hm⟩ | ⟨rest, hi, hm⟩ | ⟨w, rest, i, hi, hp, -, hm⟩ | ⟨e, rest, hi, hm⟩ |
    ⟨rest, hi, hm⟩ | ⟨d, rest, hi, rfl⟩
  · rw [(micro_frame hm).1]; exact fun i h => h
  · rw [(micro_frame hm).1, hi]; exact fun i h => List.mem_cons_of_mem _ h
  · obtain ⟨-, -, ht, -⟩ := exec_eq_next hm; rw [ht, hi]; exact fun i h => List.mem_cons_of_mem _ h
  · obtain ⟨-, rfl⟩ := preempt_eq_next.1 hm; rw [hi]; exact fun i h => List.mem_cons_of_mem _ h
  · obtain ⟨-, _, _, hb, rfl⟩ := handlerReturn_eq_next.1 hm; rw [hi]; exact fun i h => List.mem_cons_of_mem _ h
  · rw [hi]; exact fun i h => List.mem_cons_of_mem _ h

end Sys2Proof.Machine
end

