-- ==== Sys2Proof/Laws/PerInstr.lean ====
section
/-! SUPPORT. Statements made for each instruction as syntax. -/

namespace Sys2Proof.Laws.EncodingSpellsItsRow

/-- The word of a command matches the row of the opcode map that has its mnemonic (R76): the opcode is the row's and every
reserved bit is 0. -/
def Statement (i : Instr) : Prop := ∃ r ∈ opcodeTable, r.mnemonic = i.mnemonic ∧ r.spells (encode i) = true

/-- A word masked is a pattern when it is so bit by bit. -/
theorem spells_of_bits {r : OpcodeRow} {w : CmdWord}
    (h : ∀ k, k < 40 → (w.getLsbD k && r.mask.getLsbD k) = r.pattern.getLsbD k) : r.spells w = true := by
  rw [OpcodeRow.spells, beq_iff_eq]
  refine bit_ext fun k hk => ?_
  rw [BitVec.getLsbD_and, h k hk]

/-- A format M word, by what the mask and the pattern of its row are. -/
theorem spells_encodeM {op : BitVec 8} {r : OpcodeRow} (mask : Byte) (off : Bool)
    (hm : ∀ k < 40, r.mask.getLsbD k = decide (9 ≤ k))
    (hp : ∀ k < 40, r.pattern.getLsbD k = (decide (32 ≤ k) && op.getLsbD (k - 32))) :
    r.spells (encodeM op mask off) = true := by
  refine spells_of_bits fun k hk => ?_
  rw [encodeM_bit, hm k hk, hp k hk]
  by_cases h1 : k < 9
  · have h2 : ¬ 9 ≤ k := by omega
    have h3 : ¬ 32 ≤ k := by omega
    simp only [h2, h3, decide_false, Bool.and_false, Bool.false_and]
  · have h2 : ¬ k < 8 := by omega
    have h3 : ¬ k = 8 := by omega
    have h4 : 9 ≤ k := by omega
    by_cases h5 : k < 32
    · have h6 : ¬ 32 ≤ k := by omega
      simp only [h2, h3, h5, h6, if_true, if_false, decide_false, Bool.false_and]
    · have h6 : 32 ≤ k := by omega
      simp only [h2, h3, h4, h5, h6, if_false, decide_true, Bool.true_and, Bool.and_true]

/-- A format I word, by what the mask and the pattern of its row are. -/
theorem spells_encodeI {op : BitVec 8} {r : OpcodeRow} (id : Identity) (off : Bool)
    (hm : ∀ k < 40, r.mask.getLsbD k = decide (17 ≤ k))
    (hp : ∀ k < 40, r.pattern.getLsbD k = (decide (32 ≤ k) && op.getLsbD (k - 32))) :
    r.spells (encodeI op id off) = true := by
  refine spells_of_bits fun k hk => ?_
  rw [encodeI_bit, hm k hk, hp k hk]
  by_cases h1 : k < 17
  · have h2 : ¬ 17 ≤ k := by omega
    have h3 : ¬ 32 ≤ k := by omega
    simp only [h2, h3, decide_false, Bool.and_false, Bool.false_and]
  · have h2 : ¬ k < 16 := by omega
    have h3 : ¬ k = 16 := by omega
    have h4 : 17 ≤ k := by omega
    by_cases h5 : k < 32
    · have h6 : ¬ 32 ≤ k := by omega
      simp only [h2, h3, h5, h6, if_true, if_false, decide_false, Bool.false_and]
    · have h6 : 32 ≤ k := by omega
      simp only [h2, h3, h4, h5, h6, if_false, decide_true, Bool.true_and, Bool.and_true]

theorem gate0 (mask : Byte) (off : Bool) : Statement (.gate0 mask off) :=
  ⟨⟨.GATE0, 0x0100000000#40, 0xFFFFFFFE00#40⟩, by decide, rfl, spells_encodeM mask off (by decide) (by decide)⟩

theorem gate1 (mask : Byte) (off : Bool) : Statement (.gate1 mask off) :=
  ⟨⟨.GATE1, 0x0200000000#40, 0xFFFFFFFE00#40⟩, by decide, rfl, spells_encodeM mask off (by decide) (by decide)⟩

theorem gateid (id : Identity) (off : Bool) : Statement (.gateid id off) :=
  ⟨⟨.GATEID, 0x0300000000#40, 0xFFFFFE0000#40⟩, by decide, rfl, spells_encodeI id off (by decide) (by decide)⟩

theorem sethclk (hz : BitVec 32) : Statement (.sethclk hz) := by
  refine ⟨⟨.SETHCLK, 0x0400000000#40, 0xFF00000000#40⟩, by decide, rfl, spells_of_bits fun k hk => ?_⟩
  have hm : ∀ k < 40, (0xFF00000000#40).getLsbD k = decide (32 ≤ k) := by decide
  have hp : ∀ k < 40, (0x0400000000#40).getLsbD k = (decide (32 ≤ k) && (4#8).getLsbD (k - 32)) := by decide
  simp only [encode]
  rw [encodeF_bit, hm k hk, hp k hk]
  by_cases h : k < 32
  · have h2 : ¬ 32 ≤ k := by omega
    simp only [h2, decide_false, Bool.and_false, Bool.false_and]
  · have h2 : 32 ≤ k := by omega
    simp only [h, h2, if_false, decide_true, Bool.and_true, Bool.true_and]

theorem gethclk : Statement .gethclk :=
  ⟨⟨.GETHCLK, 0x0500000000#40, 0xFFFFFFFFFF#40⟩, by decide, rfl, by decide⟩

end Sys2Proof.Laws.EncodingSpellsItsRow
end

