-- ==== Sys2Proof/Tests/Slice0.lean ====
section
/-! SUPPORT. Tests. The expected results come from spec/ (95_test_vectors.md unless said); a theorem `witness_<Name>` shows
that the hypotheses of the obligation `<Name>` are met together, for each of its clauses. -/

namespace Sys2Proof.Tests

open Sys2Proof Sys2Proof.Machine

/-- What holds of the state after an operation that goes on. -/
def after {α β : Type} (o : Result α) (f : α → β) : Option β :=
  match o with
  | .next t => some (f t)
  | .fault _ => none
  | .refused _ => none

/-- `T0cfg` of a variant after power-on with zero draws. -/
def start (v : Variant) : State := State.resetWith (t0cfg v) ResetDraw.zero

/-- `start` with other bytes in `CG0` and `CG1`. -/
def withGates (v : Variant) (a b : Byte) : State :=
  (start v).setRegs { (start v).regs with cg0 := a, cg1 := b }

/-- `start` with other frequency fields. -/
def withDiv (v : Variant) (d : Byte) (sel : Bool) : State :=
  (start v).setRegs { (start v).regs with pllDiv := d, selPll := sel }

/-- A frame half way through `GATE0 mask, off`, every latch written. -/
def gateFrame (p : Phase) (mask : Byte) (off : Bool) (cur : Byte) : Frame :=
  { Frame.fresh with
    cmd := some (encode (.gate0 mask off)), kind := some .gate, tgt := some .cg0, m := some mask, off := some off
    saved := some true, tmp := some cur, phase := p }

/-- A frame half way through SETHCLK with divider `d` and select `b`. -/
def setFrame (p : Phase) (d : BitVec 5) (b : Bool) : Frame :=
  { Frame.fresh with kind := some .set, div := some d, sel := some b, saved := some true, phase := p }

/-- A frame half way through GETHCLK. -/
def getFrame (p : Phase) (d : Byte) : Frame :=
  { Frame.fresh with kind := some .get, tdiv := some d, phase := p }

/-- The block with a given top frame, locked or not as its phase says, and `IE` off in the region. -/
def busy (f : Frame) : State :=
  { start .va with top := f, ie := !f.phase.inRegion, safe := f.phase.unlocked }

/-! ### Well-formedness: each check refuses an ill-formed configuration (R6, R50, R116) -/

theorem test_wf_accepts_every_variant :
    (t0cfg .va).wf = true ∧ (t0cfg .vb).wf = true ∧ (t0cfg .vc).wf = true := by decide

theorem test_wf_refuses_ranges :
    { t0cfg .va with divWidth := 3 }.rangesOk = false ∧ { t0cfg .va with divWidth := 9 }.rangesOk = false ∧
    { t0cfg .va with endOfIdentities := 0 }.rangesOk = false ∧
    { t0cfg .va with endOfIdentities := 65537 }.rangesOk = false ∧
    { t0cfg .va with failCode := 0 }.rangesOk = false ∧ { t0cfg .va with nCtx := 0 }.rangesOk = false ∧
    { t0cfg .va with nCtx := 0 }.wf = false := by decide

theorem test_wf_refuses_equal_offsets :
    { t0cfg .va with offCg1 := 0x0C }.offsetsDistinct = false ∧ { t0cfg .va with offCg1 := 0x0C }.wf = false := by decide

theorem test_wf_refuses_collision :
    { t0cfg .va with t1 := [⟨16, 1⟩] }.noCollision = false ∧ { t0cfg .va with t1 := [⟨16, 1⟩] }.wf = false := by decide

theorem test_wf_refuses_shared_bit :
    Table.oneBitEach [⟨16, 1⟩, ⟨17, 1⟩] = false ∧ { t0cfg .va with t0 := [⟨16, 1⟩, ⟨17, 1⟩] }.wf = false := by decide

theorem test_wf_refuses_binding_above_the_end :
    { t0cfg .va with t0 := [⟨48, 1⟩] }.boundBelowEnd = false ∧ { t0cfg .va with t0 := [⟨48, 1⟩] }.wf = false := by decide

theorem test_wf_refuses_wake_table_without_wake :
    { t0cfg .va with tw := [⟨38, 1⟩] }.wakeTableOk = false ∧ { t0cfg .va with tw := [⟨38, 1⟩] }.wf = false := by decide

/-! ### Decoding (30_encoding.md R71 to R78; V-E1 to V-E14) -/

/-- Format M bit by bit: opcode 0000_0001, reserved 23 zeros, off 1, mask 0001_0010. -/
theorem test_decode_gate0 :
    decode 0b0000000100000000000000000000000100010010#40 = .ok (.gate0 0x12 true) := by decide

/-- Format M bit by bit: opcode 0000_0010, reserved 23 zeros, off 1, mask 1000_0001. -/
theorem test_decode_gate1 :
    decode 0b0000001000000000000000000000000110000001#40 = .ok (.gate1 0x81 true) := by decide

/-- Format I bit by bit: opcode 0000_0011, reserved 15 zeros, off 1, id 0000_0000_0001_0100. -/
theorem test_decode_gateid :
    decode 0b0000001100000000000000010000000000010100#40 = .ok (.gateid 20 true) := by decide

/-- Format F bit by bit: opcode 0000_0100, hz 0x07270E00. -/
theorem test_decode_sethclk :
    decode 0b0000010000000111001001110000111000000000#40 = .ok (.sethclk 120000000) := by decide

/-- Format N bit by bit: opcode 0000_0101, zeros. -/
theorem test_decode_gethclk :
    decode 0b0000010100000000000000000000000000000000#40 = .ok .gethclk := by decide

/-- V-E9 to V-E14. -/
theorem test_decode_invalid :
    decode 0x0000000000#40 = .error .unknownOpcode ∧ decode 0x0600000000#40 = .error .unknownOpcode ∧
    decode 0xFFFFFFFFFF#40 = .error .unknownOpcode ∧ decode 0x0100000200#40 = .error .reservedBits ∧
    decode 0x0300020000#40 = .error .reservedBits ∧ decode 0x0500000001#40 = .error .reservedBits := by decide

/-- The words of 95_test_vectors.md 3.3 and 3.4, encoded. -/
theorem test_encode :
    encode (.gate0 0x3C false) = 0x010000003C#40 ∧ encode (.gate1 0x81 true) = 0x0200000181#40 ∧
    encode (.gateid 65535 true) = 0x030001FFFF#40 ∧ encode (.sethclk 96000001) = 0x0405B8D801#40 ∧
    encode .gethclk = 0x0500000000#40 := by decide

theorem test_decodeTableWord :
    decodeTableWord 40 0x0100000112 = some (.gate0 0x12 true) ∧
    decodeTableWord 40 0x0200000181 = some (.gate1 0x81 true) ∧
    decodeTableWord 40 0x0300010014 = some (.gateid 20 true) ∧
    decodeTableWord 40 0x0400000000 = some (.sethclk 0) ∧
    decodeTableWord 40 0x0500000000 = some .gethclk ∧ decodeTableWord 40 0x0100000200 = none := by decide

/-- A placed word is what the very next step accepts. -/
theorem test_withFetchWord :
    after (step (State.reset.withFetchWord 40 0x0200000181)) (fun t => (t.top.cmd, t.top.phase, t.inputs)) =
      some (some 0x0200000181#40, .ready, []) := by decide

/-! ### The Resolver (V-R1 to V-R14) -/

theorem test_resolve_va :
    resolve (t0cfg .va) 16 = some ⟨.cg0, 1⟩ ∧ resolve (t0cfg .va) 47 = some ⟨.cg0, 4⟩ ∧
    resolve (t0cfg .va) 30 = some ⟨.cg1, 7⟩ ∧ resolve (t0cfg .va) 29 = some ⟨.cg1, 6⟩ ∧
    resolve (t0cfg .va) 38 = none ∧ resolve (t0cfg .va) 19 = none ∧ resolve (t0cfg .va) 48 = none ∧
    resolve (t0cfg .va) 65535 = none := by decide

theorem test_resolve_vb_vc :
    resolve (t0cfg .vb) 29 = some ⟨.cg1, 5⟩ ∧ resolve (t0cfg .vb) 31 = some ⟨.cg1, 6⟩ ∧
    resolve (t0cfg .vc) 30 = some ⟨.wake, 2⟩ ∧ resolve (t0cfg .vc) 38 = some ⟨.wake, 1⟩ ∧
    resolve (t0cfg .vc) 36 = some ⟨.cg1, 7⟩ ∧ resolve (t0cfg .vc) 29 = none := by decide

/-! ### The commands -/

/-- V-G2: gating on clears exactly the masked bits. -/
theorem test_gate0 :
    after (runCommand (.gate0 0x3C false) (withGates .va 0xA5 0x5A)) (fun t => (t.regs.cg0, t.regs.cg1, t.top.res)) =
      some (0x81, 0x5A, none) := by decide

/-- V-G6: a bit that nobody owns is set. -/
theorem test_gate1 :
    after (runCommand (.gate1 0x81 true) (withGates .va 0xA5 0x5A)) (fun t => (t.regs.cg0, t.regs.cg1, t.top.res)) =
      some (0xA5, 0xDB, none) := by decide

/-- V-G13: on `VC` identity 30 is bit 2 of `WAKE`. -/
theorem test_gateid_wake :
    after (runCommand (.gateid 30 true) (start .vc)) (fun t => (t.regs.wake, t.regs.cg1, t.top.res)) =
      some (some 0x04, 0x00, some 2) := by decide

/-- V-G9: at the bound nothing happens after `S_ACCEPT`. -/
theorem test_gateid_unbound :
    after (exec (.gateid 48 true) (withGates .va 0x5A 0x5A)) (fun t => (t.top.phase, t.regs.cg0, t.regs.cg1, t.top.res)) =
      some (.idle, 0x5A, 0x5A, some 0) := by decide

/-- V-S8: the divider 16 is stored as 0 when `DIV_WIDTH = 4`. -/
theorem test_sethclk_alias :
    after (runCommand (.sethclk 30000000) (start .va))
        (fun t => (t.top.div, t.regs.pllDiv, t.regs.selPll, t.top.res)) =
      some (some 16, 0, true, some 0) := by decide

/-- V-S21: below the range. -/
theorem test_sethclk_rejected :
    after (exec (.sethclk 1999999) (withDiv .va 4 true)) (fun t => (t.top.phase, t.regs.pllDiv, t.regs.selPll, t.top.res)) =
      some (.idle, 4, true, some 0xFFFFFFFF) := by decide

/-- V-H9 and V-H10. -/
theorem test_gethclk :
    after (runCommand .gethclk (withDiv .va 7 true)) (fun t => (t.top.res, t.regs.pllDiv)) = some (some 68571428, 7) ∧
    after (runCommand .gethclk (withDiv .va 7 false)) (fun t => (t.top.res, t.regs.pllDiv)) = some (some 4285714, 7) := by
  decide

/-- V-H1, V-H2, V-H14, V-H15. -/
theorem test_hclkOf :
    hclkOf 0 true = 30000000 ∧ hclkOf 0 false = 2000000 ∧ hclkOf 16 false = 1875000 ∧ hclkOf 255 true = 1882352 := by
  decide

/-- V-S20, V-S26, V-S28: the branch ends and truncation. -/
theorem test_quantize :
    quantize 29999999 = some ⟨1, false⟩ ∧ quantize 96000001 = some ⟨4, true⟩ ∧ quantize 30000001 = some ⟨15, true⟩ ∧
    quantize 2000000 = some ⟨15, false⟩ ∧ quantize 120000001 = none ∧ quantize 4294967295 = none := by decide

/-! ### Single micro-operations (V-P1, V-P2) and contexts -/

theorem test_S_DISABLE :
    after (micro (busy (gateFrame .ready 0x20 true 0))) (fun t => (t.ie, t.top.saved, t.top.phase)) =
      some (false, some true, .masked) := by decide

theorem test_S_WRITE :
    after (micro (busy (gateFrame .loaded 0x20 true 0))) (fun t => (t.regs.cg0, t.safe, t.top.phase)) =
      some (0x20, true, .stored) := by decide

/-- V-P2: between the two writes `Hclk()` is 7,500,000. -/
theorem test_S_WRDIV :
    after (micro (busy (setFrame .opened 4 true))) (fun t => (t.regs.pllDiv, t.top.phase, hclk t)) =
      some (4, .stored1, 7500000) := by decide

theorem test_S_RESTORE :
    after (micro (busy (gateFrame .closed 0x20 true 0))) (fun t => (t.ie, t.safe, t.top.phase)) =
      some (true, false, .idle) := by decide

/-- P3: `E_PREEMPT` is enabled at `READY` and not at `LOADED`. -/
theorem test_preempt :
    after (preempt false (busy (gateFrame .ready 2 true 0))) (fun t => (t.ie, t.top.phase, t.depth)) =
      some (false, .idle, 2) ∧
    after (preempt false (busy (gateFrame .loaded 2 true 0))) (fun t => t.ie) = none := by decide

theorem test_handlerReturn :
    after (handlerReturn { start .va with below := [gateFrame .ready 2 true 0] }) (fun t => (t.ie, t.top.phase, t.depth)) =
      some (true, .ready, 1) ∧
    after (handlerReturn (start .va)) (fun t => t.ie) = none := by decide

theorem test_assembler_refuses :
    Asm.parseLine [] "   ; nothing".toList = .error .noCommand ∧
    Asm.parseLine [] "GATE0 0x100, 1".toList = .error .badOperands ∧
    Asm.parseLine [] "GATE0 1, 2".toList = .error .badOperands ∧
    Asm.parseLine [] "HALT".toList = .error .unknownMnemonic := by decide

/-! ### Legal states for the witnesses -/

theorem inv_start : Inv (start .va) :=
  ⟨by decide, by decide, by decide, by simp [start, State.resetWith], by decide, trivial,
    by simp [start, State.resetWith], by decide, by decide⟩

theorem inv_start_vc : Inv (start .vc) :=
  ⟨by decide, by decide, by decide, by simp [start, State.resetWith], by decide, trivial,
    by simp [start, State.resetWith], by decide, by decide⟩

/-- The thread at `READY`, interrupts on. -/
theorem inv_ready : Inv (busy (gateFrame .ready 2 true 0)) :=
  ⟨by decide, by decide, by decide, by simp [busy, start, State.resetWith], by decide,
    .inl ⟨rfl, ⟨.cg0, rfl, by simp⟩, ⟨_, rfl⟩, ⟨_, rfl⟩⟩, by simp [busy, start, State.resetWith], by decide, by decide⟩

/-- The thread at `MASKED` in the region of `GATE0`. -/
theorem inv_masked : Inv (busy (gateFrame .masked 2 true 0)) :=
  ⟨by decide, by decide, by decide, by simp [busy, start, State.resetWith], by decide,
    ⟨.inl ⟨rfl, ⟨.cg0, rfl, by simp⟩, ⟨_, rfl⟩, ⟨_, rfl⟩⟩, ⟨_, rfl⟩⟩, by simp [busy, start, State.resetWith], by decide,
    by decide⟩

/-- The thread at `STORED1` in the region of SETHCLK. -/
theorem inv_stored1 : Inv (busy (setFrame .stored1 16 true)) :=
  ⟨by decide, by decide, by decide, by simp [busy, start, State.resetWith], by decide,
    ⟨⟨rfl, ⟨_, rfl, by decide, by decide⟩, ⟨_, rfl⟩⟩, ⟨_, rfl⟩⟩, by simp [busy, start, State.resetWith], by decide,
    by decide⟩

/-- The thread at `GET1`. -/
theorem inv_get1 : Inv (busy (getFrame .get1 15)) :=
  ⟨by decide, by decide, by decide, by simp [busy, start, State.resetWith], by decide,
    ⟨rfl, ⟨_, rfl, by decide⟩⟩, by simp [busy, start, State.resetWith], by decide, by decide⟩

/-- An `IDLE` handler above a thread suspended at `READY`. -/
def handler : State := { busy Frame.fresh with below := [gateFrame .ready 2 true 0] }

theorem inv_handler : Inv handler := by
  refine ⟨by decide, by decide, by decide, ?_, by decide, trivial, ?_, by decide, by decide⟩
  · intro f hf
    obtain rfl : f = gateFrame .ready 2 true 0 := by simpa [handler] using hf
    decide
  · intro f hf
    obtain rfl : f = gateFrame .ready 2 true 0 := by simpa [handler] using hf
    exact .inl ⟨rfl, ⟨.cg0, rfl, by simp⟩, ⟨_, rfl⟩, ⟨_, rfl⟩⟩

/-! ### Witnesses -/

theorem witness_EncodedCommandDecodesToItself :
    (Instr.gate0 0xFF true).wf = true ∧ (Instr.gate1 0 false).wf = true ∧ (Instr.gateid 65535 true).wf = true ∧
    (Instr.sethclk 4294967295).wf = true ∧ Instr.gethclk.wf = true := by decide

theorem witness_DecodedWordIsTheWordOfItsCommand :
    decode 0x01000001FF#40 = .ok (.gate0 0xFF true) ∧ decode 0x030001FFFF#40 = .ok (.gateid 65535 true) ∧
    decode 0x04FFFFFFFF#40 = .ok (.sethclk 4294967295) := by decide

theorem witness_WordSpellsACommandExactlyWhenItsRowMatches :
    ⟨.GATE0, 0x0100000000#40, 0xFFFFFFFE00#40⟩ ∈ opcodeTable ∧
    0x01000001FF#40 &&& 0xFFFFFFFE00#40 = 0x0100000000#40 := by decide

theorem witness_InvalidWordIsRefused :
    opcodeOf 0x00FFFFFFFF#40 = 0#8 ∧ 6#8 ≤ opcodeOf 0x0600000000#40 ∧ 6#8 ≤ opcodeOf 0xFF00000000#40 ∧
    (∀ r ∈ opcodeTable, 0x0100000200#40 &&& r.mask ≠ r.pattern) ∧
    decode 0x0500000001#40 = .error .reservedBits ∧ (start .va).top.phase = .idle ∧
    ((start .va).setInputs [.command 0x0500000001#40]).inputs = .command 0x0500000001#40 :: [] := by decide

theorem witness_StepRunsTheDecodedCommand :
    ((start .va).setInputs [.command 0x0500000000#40, .advance]).inputs = .command 0x0500000000#40 :: [.advance] ∧
    ((start .va).setInputs [.command 0x0500000000#40, .advance]).top.phase = .idle ∧
    decode 0x0500000000#40 = .ok .gethclk := by decide

theorem witness_StepOfABusyFrameIsItsMicroOperation :
    (busy (getFrame .get1 4)).top.phase ≠ .idle ∧ (busy (getFrame .get1 4)).inputs = [] ∧
    ((busy (getFrame .get1 4)).setInputs [.command 0]).inputs = .command 0 :: [] ∧
    ((busy (getFrame .get1 4)).setInputs [.advance]).inputs = .advance :: [] := by decide

theorem witness_IdleBlockWithoutInputsWaits : State.reset.top.phase = .idle ∧ State.reset.inputs = [] := by decide

/-- Also the hypotheses of the whole-command statements that only ask for an `IDLE` frame and `SAFE = 0`. -/
theorem witness_AcceptTouchesOnlyTheIssuingFrame :
    (start .va).top.phase = .idle ∧ (start .va).safe = false ∧
    (after (exec (.sethclk 1) (start .va)) fun t => t.top.phase) = some .idle ∧
    (after (exec .gethclk (start .va)) fun t => t.top.phase) = some .get0 ∧
    (start .va).cfg = (withGates .va 1 2).cfg ∧ (start .va).top = (withGates .va 1 2).top ∧
    (start .va).safe = (withGates .va 1 2).safe := by decide

theorem witness_AcceptWithUnlockedBlockIsRefused :
    ((start .va).setSafe true).top.phase = .idle ∧ ((start .va).setSafe true).safe = true := by decide

theorem witness_Gate0ReadsModifiesAndWritesCg0 : (start .va).top.phase = .idle ∧ (start .va).safe = false := by decide

theorem witness_Gate1ReadsModifiesAndWritesCg1 : (start .vb).top.phase = .idle ∧ (start .vb).safe = false := by decide

theorem witness_GateIdWithABindingWritesTheResolvedRegister :
    ((start .vc).top.phase = .idle ∧ (start .vc).safe = false) ∧
    (resolve (start .vc).cfg 47 = some ⟨.cg0, 4⟩ ∧ (start .vc).regs.gate .cg0 = some 0) ∧
    (resolve (start .vc).cfg 36 = some ⟨.cg1, 7⟩ ∧ (start .vc).regs.gate .cg1 = some 0) ∧
    (resolve (start .vc).cfg 38 = some ⟨.wake, 1⟩ ∧ (start .vc).regs.gate .wake = some 0) := by decide

theorem witness_GateIdWithoutABindingOnlyAnswersZero :
    (start .va).top.phase = .idle ∧ (start .va).safe = false ∧ resolve (start .va).cfg 19 = none ∧
    resolve (start .va).cfg 48 = none := by decide

theorem witness_GateCommandsKeepBitsOutsideTheMask :
    (start .va).top.phase = .idle ∧ (start .va).safe = false ∧ 0 < 8 ∧ 7 < 8 := by decide

theorem witness_GatingIsIdempotentAndClearsExactly :
    (∃ m, Instr.gate0 2 true = .gate0 m true ∧ Instr.gate0 2 false = .gate0 m false ∧ GateReg.cg0 = .cg0 ∧ 2 = m) ∧
    (∃ m, Instr.gate1 2 true = .gate1 m true ∧ Instr.gate1 2 false = .gate1 m false ∧ GateReg.cg1 = .cg1 ∧ 2 = m) ∧
    (∃ id b, Instr.gateid 38 true = .gateid id true ∧ Instr.gateid 38 false = .gateid id false ∧
      resolve (start .vc).cfg id = some ⟨.wake, b⟩ ∧ 2 = maskOf b) ∧
    (start .vc).top.phase = .idle ∧ (start .vc).safe = false ∧ (start .vc).regs.gate .cg0 = some 0 ∧
    (start .vc).regs.gate .cg1 = some 0 ∧ (start .vc).regs.gate .wake = some 0 :=
  ⟨⟨2, rfl, rfl, rfl, rfl⟩, ⟨2, rfl, rfl, rfl, rfl⟩, ⟨38, 1, rfl, rfl, by decide, by decide⟩, by decide⟩

theorem witness_GatedShowsTheLastGateCommand :
    (start .va).top.phase = .idle ∧ (start .va).safe = false ∧ resolve (start .va).cfg 16 = some ⟨.cg0, 1⟩ ∧
    resolve (start .va).cfg 30 = some ⟨.cg1, 7⟩ := by decide

theorem witness_ResolveSearchesTheTablesInOrder :
    ((t0cfg .vc).endOfIdentities ≤ (48 : Identity).toNat) ∧ ((47 : Identity).toNat < (t0cfg .vc).endOfIdentities) ∧
    (t0cfg .vc).t0.lookup 47 ≠ 0 ∧ ((t0cfg .vc).t0.lookup 36 = 0 ∧ (t0cfg .vc).t1.lookup 36 ≠ 0) ∧
    ((t0cfg .vc).t0.lookup 38 = 0 ∧ (t0cfg .vc).t1.lookup 38 = 0 ∧ (t0cfg .vc).hasWake = true ∧
      (t0cfg .vc).tw.lookup 38 ≠ 0) ∧
    ((t0cfg .vc).t0.lookup 0 = 0 ∧ (t0cfg .vc).t1.lookup 0 = 0 ∧
      ((t0cfg .vc).hasWake = true → (t0cfg .vc).tw.lookup 0 = 0)) := by decide

theorem witness_ResolvedBindingIsLegal :
    resolve (t0cfg .vc) 38 = some ⟨.wake, 1⟩ ∧ (t0cfg .vc).wf = true ∧ (t0cfg .vc).t0.lookup 16 ≠ 0 ∧
    (t0cfg .vc).t1.lookup 24 ≠ 0 ∧ (t0cfg .vc).tw.lookup 38 ≠ 0 := by decide

theorem witness_WellFormedConfigurationBindsOneBitPerIdentity :
    (t0cfg .va).wf = true ∧ (16 : Identity) ≠ 17 ∧ (t0cfg .va).t0.lookup 16 ≠ 0 ∧
    (t0cfg .va).endOfIdentities ≤ (48 : Identity).toNat ∧ (t0cfg .va).hasWake = false := by decide

/-- The ends of both ranges. -/
theorem witness_SetHclkInRangeWritesDividerAndSelect :
    (start .va).top.phase = .idle ∧ (start .va).safe = false ∧
    (30000000 ≤ (30000000 : BitVec 32).toNat ∧ (30000000 : BitVec 32).toNat ≤ 120000000) ∧
    (30000000 ≤ (120000000 : BitVec 32).toNat ∧ (120000000 : BitVec 32).toNat ≤ 120000000) ∧
    (2000000 ≤ (2000000 : BitVec 32).toNat ∧ (2000000 : BitVec 32).toNat < 30000000) ∧
    (2000000 ≤ (29999999 : BitVec 32).toNat ∧ (29999999 : BitVec 32).toNat < 30000000) := by decide

theorem witness_SetHclkOutOfRangeChangesNothing :
    (start .va).top.phase = .idle ∧ (start .va).safe = false ∧ (start .va).cfg.wf = true ∧
    (1999999 : BitVec 32).toNat < 2000000 ∧ 120000000 < (120000001 : BitVec 32).toNat := by decide

theorem witness_GetHclkAnswersTheSelectedFrequency :
    (withDiv .va 15 true).top.phase = .idle ∧ (withDiv .va 15 true).safe = false := by decide

theorem witness_ZeroDividerReadsAsTheLowestFrequency :
    (withDiv .va 0 true).top.phase = .idle ∧ (withDiv .va 0 true).safe = false ∧
    (withDiv .va 0 true).regs.pllDiv = 0 := by decide

theorem witness_ComputedDividerIsBetweenOneAndSixteen :
    quantize 30000000 = some ⟨16, true⟩ ∧ quantize 120000000 = some ⟨4, true⟩ ∧
    quantize 29999999 = some ⟨1, false⟩ ∧ quantize 2000000 = some ⟨15, false⟩ := by decide

theorem witness_DocumentedFrequenciesReadBackExactly :
    30000000 ∈ documentedFrequencies ∧
    ((start .va).setInputs [.command (encode (.sethclk 30000000)), .command (encode .gethclk)]).cfg.wf = true ∧
    (start .va).top.phase = .idle ∧ (start .va).safe = false := by decide

/-- The schedule of P4 at `GET1`. -/
theorem witness_PreemptedGetHclkMayBeTorn :
    (busy (getFrame .get1 4)).top.phase = .get1 ∧ (busy (getFrame .get1 4)).top.tdiv = some 4 ∧
    (busy (getFrame .get1 4)).safe = false ∧ (busy (getFrame .get1 4)).ie = true ∧
    (busy (getFrame .get1 4)).depth < (busy (getFrame .get1 4)).cfg.nCtx ∧
    quantize 15000000 = some ⟨2, false⟩ ∧ hclkOf 4 false = 7500000 := by decide

theorem witness_SetHclkPassesThroughATransientFrequency :
    (start .va).top.phase = .idle ∧ (start .va).safe = false ∧ quantize 120000000 = some ⟨4, true⟩ := by decide

theorem witness_BracketOperationsChangeOnlyFlagAndPhase :
    (busy (gateFrame .ready 2 true 0)).top.phase = .ready ∧ (busy (gateFrame .masked 2 true 0)).top.phase = .masked ∧
    (busy (gateFrame .stored 2 true 0)).top.phase = .stored ∧
    (busy (gateFrame .closed 2 true 0)).top.phase = .closed ∧
    (busy (gateFrame .closed 2 true 0)).top.saved = some true := by decide

theorem witness_ReadAndWriteOfTheTargetRegister :
    ((busy (gateFrame .opened 2 true 0)).top.tgt = some .cg0 ∧ (busy (gateFrame .opened 2 true 0)).top.phase = .opened ∧
      (busy (gateFrame .opened 2 true 0)).top.kind = some .gate ∧
      (busy (gateFrame .opened 2 true 0)).regs.gate .cg0 = some 0) ∧
    ((busy (gateFrame .loaded 2 true 0)).top.tgt = some .cg0 ∧ (busy (gateFrame .loaded 2 true 0)).top.phase = .loaded ∧
      (busy (gateFrame .loaded 2 true 0)).top.tmp = some 0 ∧ (busy (gateFrame .loaded 2 true 0)).top.m = some 2 ∧
      (busy (gateFrame .loaded 2 true 0)).top.off = some true ∧ (busy (gateFrame .loaded 2 true 0)).safe = true ∧
      (busy (gateFrame .loaded 2 true 0)).ie = false ∧
      (busy (gateFrame .loaded 2 true 0)).regs.gate .cg0 = some 0) := by decide

theorem witness_DividerAndSelectWrites :
    ((busy (setFrame .opened 16 true)).safe = true ∧ (busy (setFrame .opened 16 true)).ie = false ∧
      (busy (setFrame .opened 16 true)).top.phase = .opened ∧ (busy (setFrame .opened 16 true)).top.kind = some .set ∧
      (busy (setFrame .opened 16 true)).top.div = some 16) ∧
    ((busy (setFrame .stored1 16 true)).safe = true ∧ (busy (setFrame .stored1 16 true)).ie = false ∧
      (busy (setFrame .stored1 16 true)).top.phase = .stored1 ∧
      (busy (setFrame .stored1 16 true)).top.sel = some true) := by decide

theorem witness_DividerAndSelectReads :
    (busy (getFrame .get0 0)).top.phase = .get0 ∧ (busy (getFrame .get1 4)).top.phase = .get1 ∧
    (busy (getFrame .get1 4)).top.tdiv = some 4 := by decide

theorem witness_PhasesFollowTheStateMachine :
    (after (micro (busy (gateFrame .opened 2 true 0))) fun t => t.top.phase) = some .loaded ∧
    (after (micro (busy (setFrame .opened 4 true))) fun t => t.top.phase) = some .stored1 ∧
    (after (exec (.gateid 19 true) (start .va)) fun t => t.top.phase) = some .idle ∧
    (after (exec (.gateid 20 true) (start .va)) fun t => t.top.phase) = some .ready ∧
    (after (exec (.sethclk 120000000) (start .va)) fun t => t.top.phase) = some .ready ∧
    (after (exec (.sethclk 120000001) (start .va)) fun t => t.top.phase) = some .idle := by decide

theorem witness_EveryCommandMakesProgress :
    Inv (busy (setFrame .stored1 16 true)) ∧ (busy (setFrame .stored1 16 true)).top.phase ≠ .idle ∧
    (after (exec (.gate0 2 true) (start .va)) fun t => t.top.phase) = some .ready :=
  ⟨inv_stored1, by decide, by decide⟩

theorem witness_RegistersChangeOnlyInsideTheProtocol :
    (∃ t, (busy (gateFrame .loaded 2 true 0)).noPowerNext ∧ step (busy (gateFrame .loaded 2 true 0)) = .next t ∧
      t.regs ≠ (busy (gateFrame .loaded 2 true 0)).regs) ∧
    (accessOf ((busy (gateFrame .loaded 2 true 0)).setSafe false) = some (.write (.gate .cg0)) ∧
      ((busy (gateFrame .loaded 2 true 0)).setSafe false).safe = false) :=
  ⟨⟨_, by simp [State.noPowerNext, busy, start, State.resetWith], rfl, by decide⟩, by decide⟩

theorem witness_MicroOperationChangesOnlyTheRegisterItWrites :
    (∃ t, micro (busy (gateFrame .loaded 2 true 0)) = .next t) ∧
    accessOf (busy (gateFrame .loaded 2 true 0)) = some (.write (.gate .cg0)) ∧
    accessOf (busy (setFrame .opened 4 true)) = some (.write .pllDiv) := ⟨⟨_, rfl⟩, by decide⟩

theorem witness_AccessesOfEachCommand :
    Inv (start .va) ∧ (start .va).top.phase = .idle ∧ (∃ t, exec (.gate0 2 true) (start .va) = .next t) ∧
    (∃ t, exec (.gate1 2 true) (start .va) = .next t) ∧
    (∃ t, exec (.gateid 20 true) (start .va) = .next t ∧ resolve (start .va).cfg 20 = some ⟨.cg0, 5⟩) ∧
    (∃ t, exec (.gateid 19 true) (start .va) = .next t ∧ resolve (start .va).cfg 19 = none) ∧
    (∃ t, exec (.sethclk 2000000) (start .va) = .next t ∧ quantize 2000000 = some ⟨15, false⟩) ∧
    (∃ t, exec (.sethclk 1999999) (start .va) = .next t ∧ quantize 1999999 = none) ∧
    (∃ t, exec .gethclk (start .va) = .next t) :=
  ⟨inv_start, by decide, ⟨_, rfl⟩, ⟨_, rfl⟩, ⟨_, rfl, by decide⟩, ⟨_, rfl, by decide⟩, ⟨_, rfl, by decide⟩,
    ⟨_, rfl, by decide⟩, ⟨_, rfl⟩⟩

theorem witness_ByteAccessByAddress :
    (start .vc).cfg.wf = true ∧ (start .vc).regs.wake.isSome = (start .vc).cfg.hasWake ∧
    (start .vc).regs.gate .wake = some 0 ∧
    ({ start .vc with safe := true } : State).ie = false ∧
    (0x4000100D : Nat) ≠ addrOf (start .vc).cfg (.gate .wake) := by decide

/-- Address 0 is no register. -/
theorem witness_OtherByteAccessesStop : (start .va).cfg.wf = true ∧ ∀ r, 0 ≠ addrOf (start .va).cfg r := by
  refine ⟨by decide, fun r => ?_⟩
  rcases r with ⟨⟨⟩⟩ | _ | _ <;> decide

theorem witness_CommandLeavesOtherAddressesUnchanged :
    Inv (start .vc) ∧ (∃ t, runCommand (.gateid 38 true) (start .vc) = .next t) ∧
    (∀ g, gateTarget (start .vc).cfg (.gateid 38 true) = some g → 0x4000100C ≠ addrOf (start .vc).cfg (.gate g)) ∧
    ∀ hz, Instr.gateid 38 true ≠ .sethclk hz := by
  refine ⟨inv_start_vc, ⟨_, rfl⟩, ?_, by simp⟩
  intro g hg
  obtain rfl : GateReg.wake = g := by simpa using (show some GateReg.wake = some g from hg)
  decide

/-- The second clause has the hypotheses of `DisabledEnvironmentStepsAreRefused`. -/
theorem witness_PreemptionPushesAFreshFrame :
    ((busy (gateFrame .ready 2 true 0)).setInputs [.preempt true]).inputs = .preempt true :: [] ∧
    (busy (gateFrame .ready 2 true 0)).ie = true ∧
    (busy (gateFrame .ready 2 true 0)).depth < (busy (gateFrame .ready 2 true 0)).cfg.nCtx := by decide

/-- The second clause has the hypotheses of `DisabledEnvironmentStepsAreRefused`. -/
theorem witness_HandlerReturnPopsTheFrame :
    (handler.setInputs [.handlerEnd]).inputs = .handlerEnd :: [] ∧ handler.below = gateFrame .ready 2 true 0 :: [] ∧
    handler.top.phase = .idle := by decide

theorem witness_DisabledEnvironmentStepsAreRefused :
    ((start .va).setInputs [.preempt true]).inputs = .preempt true :: [] ∧ (start .va).ie = false ∧
    (handler.ie = true ∧ handler.cfg.nCtx ≤ handler.depth) ∧
    ((start .va).setInputs [.handlerEnd]).inputs = .handlerEnd :: [] ∧ (start .va).below = [] ∧
    { handler with top := getFrame .get1 4 }.top.phase ≠ .idle := by decide

theorem witness_OnlyTheTopFrameSteps :
    (∃ t, (busy (gateFrame .ready 2 true 0)).noPowerNext ∧ step (busy (gateFrame .ready 2 true 0)) = .next t) ∧
    (∃ t, ((busy (gateFrame .ready 2 true 0)).setInputs [.preempt true]).noPowerNext ∧
      step ((busy (gateFrame .ready 2 true 0)).setInputs [.preempt true]) = .next t) ∧
    (∃ t, (handler.setInputs [.handlerEnd]).noPowerNext ∧ step (handler.setInputs [.handlerEnd]) = .next t) :=
  ⟨⟨_, by simp [State.noPowerNext, busy, start, State.resetWith], rfl⟩,
    ⟨_, by simp [State.noPowerNext, Input.isPower], rfl⟩, ⟨_, by simp [State.noPowerNext, Input.isPower], rfl⟩⟩

theorem witness_GateRegionIsAtomicUnderEveryInput :
    Inv (busy (gateFrame .masked 2 true 0)) ∧ (busy (gateFrame .masked 2 true 0)).noPower ∧
    (busy (gateFrame .masked 2 true 0)).top.phase = .masked ∧ (busy (gateFrame .masked 2 true 0)).top.kind = some .gate ∧
    (busy (gateFrame .masked 2 true 0)).top.tgt = some .cg0 ∧ (busy (gateFrame .masked 2 true 0)).top.m = some 2 ∧
    (busy (gateFrame .masked 2 true 0)).top.off = some true ∧
    (busy (gateFrame .masked 2 true 0)).top.saved = some true ∧
    (busy (gateFrame .masked 2 true 0)).regs.gate .cg0 = some 0 ∧
    ∃ t, run 5 (busy (gateFrame .masked 2 true 0)) = .next t :=
  ⟨inv_masked, by simp [State.noPower, busy, start, State.resetWith], rfl, rfl, rfl, rfl, rfl, rfl, rfl, ⟨_, rfl⟩⟩

theorem witness_NoOtherStepInsideTheRegion :
    Inv (busy (gateFrame .masked 2 true 0)) ∧ (busy (gateFrame .masked 2 true 0)).noPowerNext ∧
    (busy (gateFrame .masked 2 true 0)).top.phase.inRegion = true ∧
    ∃ t, step (busy (gateFrame .masked 2 true 0)) = .next t :=
  ⟨inv_masked, by simp [State.noPowerNext, busy, start, State.resetWith], rfl, ⟨_, rfl⟩⟩

/-- Also the hypothesis of `ResetLeavesTheBlockLockedAndIdle`. -/
theorem witness_ResetStateIsLegal : (t0cfg .va).wf = true ∧ (t0cfg .vc).wf = true := by decide

theorem witness_EveryStepKeepsTheStateLegal :
    (Inv (busy (getFrame .get1 15)) ∧ ∃ t, step (busy (getFrame .get1 15)) = .next t) ∧
    (Inv ((busy (gateFrame .ready 2 true 0)).setInputs [.preempt false]) ∧
      ∃ t, step ((busy (gateFrame .ready 2 true 0)).setInputs [.preempt false]) = .next t) ∧
    (Inv (handler.setInputs [.handlerEnd]) ∧ ∃ t, step (handler.setInputs [.handlerEnd]) = .next t) ∧
    (Inv ((start .va).setInputs [.command 0x0500000000#40]) ∧
      ∃ t, step ((start .va).setInputs [.command 0x0500000000#40]) = .next t) :=
  ⟨⟨inv_get1, ⟨_, rfl⟩⟩, ⟨inv_setInputs _ inv_ready, ⟨_, rfl⟩⟩, ⟨inv_setInputs _ inv_handler, ⟨_, rfl⟩⟩,
    ⟨inv_setInputs _ inv_start, ⟨_, rfl⟩⟩⟩

theorem witness_NoRunFromALegalStateFaults : Inv (busy (gateFrame .masked 2 true 0)) := inv_masked

theorem witness_ResetLeavesTheBlockLockedAndIdle :
    (t0cfg .vc).wf = true ∧ (RegBlock.mk 1 2 (some 3) 15 true).wake.isSome = (t0cfg .vc).hasWake ∧
    (RegBlock.mk 1 2 (some 3) 15 true).pllDiv.toNat < 2 ^ (t0cfg .vc).divWidth := by decide

theorem witness_PowerCycleResetsTheBlock :
    ((busy (gateFrame .loaded 2 true 0)).setInputs [.powerCycle ResetDraw.zero, .advance]).inputs =
      .powerCycle ResetDraw.zero :: [.advance] := by decide

theorem witness_ConfigurationNeverChanges : ∃ t, run 1 (busy (gateFrame .masked 2 true 0)) = .next t := ⟨_, rfl⟩

theorem witness_ThreadInterruptStateIsKept :
    Inv (busy (gateFrame .masked 2 true 0)) ∧ (busy (gateFrame .masked 2 true 0)).noPowerNext ∧
    (busy (gateFrame .masked 2 true 0)).threadIe = true ∧ ∃ t, step (busy (gateFrame .masked 2 true 0)) = .next t :=
  ⟨inv_masked, by simp [State.noPowerNext, busy, start, State.resetWith], rfl, ⟨_, rfl⟩⟩

/-- A run over GETHCLK, and the finished state at its end. -/
theorem witness_FinishedRunIsLockedWithItsLaunchIe :
    Inv ((start .va).setInputs [.command 0x0500000000#40]) ∧ (start .va).below = [] ∧ (start .va).top.phase = .idle ∧
    ((start .va).setInputs [.command 0x0500000000#40]).noPower ∧
    ∃ t, run 3 ((start .va).setInputs [.command 0x0500000000#40]) = .next t ∧ t.Finished :=
  ⟨inv_setInputs _ inv_start, rfl, rfl, by simp [State.noPower, Input.isPower], ⟨_, rfl, rfl, rfl, rfl⟩⟩

end Sys2Proof.Tests
end

/-! SUPPORT. Facts about steps, resets, byte addresses and the gated bit that the statements of 10_state.md need, and
the proofs of those statements. -/

namespace Sys2Proof.Machine

/-! ### A step, by the head of the inputs (10_state.md R25, R39) -/

theorem step_of_no_inputs {s : State} (hi : s.inputs = []) : step s = micro s := by
  simp [step, nextStep, hi]

theorem step_of_advance {s : State} {rest : List Input} (hi : s.inputs = .advance :: rest) :
    step s = micro (s.setInputs rest) := by
  simp [step, nextStep, hi]

/-- A command waits while the top frame is busy (R25). -/
theorem step_of_command_busy {s : State} {w : CmdWord} {rest : List Input} (hi : s.inputs = .command w :: rest)
    (hp : s.top.phase ≠ .idle) : step s = micro s := by
  simp [step, nextStep, hi, hp]

/-- A command is presented to an `IDLE` top frame (R25, R91). -/
theorem step_of_command_idle {s : State} {w : CmdWord} {rest : List Input} (hi : s.inputs = .command w :: rest)
    (hp : s.top.phase = .idle) : step s = present w (s.setInputs rest) := by
  simp [step, nextStep, hi, hp]

theorem present_of_decode {w : CmdWord} {i : Instr} (h : decode w = .ok i) (s : State) : present w s = exec i s := by
  simp [present, h]

/-- Settles O7: the word is presented, and presenting a valid word is `exec` of its command. -/
theorem stepRunsTheDecodedCommand : Obligations.StepRunsTheDecodedCommand := by
  intro s w rest i hi hp hd
  rw [step_of_command_idle hi hp, present_of_decode hd]

/-- Settles O8, by the head of the inputs. -/
theorem stepOfABusyFrameIsItsMicroOperation : Obligations.StepOfABusyFrameIsItsMicroOperation :=
  fun _ hp => ⟨step_of_no_inputs, fun _ _ hi => step_of_command_busy hi hp, fun _ => step_of_advance⟩

/-! ### What every step leaves unchanged (10_state.md R23, R39) -/

/-- An accepted command touches neither a suspended frame nor the configuration (R91). -/
theorem exec_frame {i : Instr} {s t : State} (h : exec i s = .next t) : t.cfg = s.cfg ∧ t.below = s.below := by
  obtain ⟨-, -, ht, -⟩ := exec_eq_next h
  rw [ht]
  exact ⟨rfl, rfl⟩

@[simp] theorem powerOn_cfg (d : ResetDraw) (s : State) : (powerOn d s).cfg = s.cfg := rfl

/-- No step, a power cycle included, changes the configuration (R39, R192). -/
theorem step_cfg {s t : State} (h : step s = .next t) : t.cfg = s.cfg := by
  rcases step_cases h with ⟨-, hm⟩ | ⟨rest, -, hm⟩ | ⟨w, rest, i, -, -, -, he⟩ | ⟨e, rest, -, hpre⟩ |
    ⟨rest, -, hret⟩ | ⟨d, rest, -, rfl⟩
  · exact (micro_frame hm).2.1
  · exact (micro_frame hm).2.1
  · exact (exec_frame he).1
  · obtain ⟨-, rfl⟩ := preempt_eq_next.1 hpre; rfl
  · obtain ⟨-, f, fs, -, rfl⟩ := handlerReturn_eq_next.1 hret; rfl
  · simp

/-- Settles O47: a micro-operation and an accepted command keep the suspended frames, `E_PREEMPT` pushes one and
`E_RETURN` pops one. -/
theorem onlyTheTopFrameSteps : Obligations.OnlyTheTopFrameSteps := by
  intro s t hnp hst
  rcases step_cases hst with ⟨-, hm⟩ | ⟨rest, -, hm⟩ | ⟨w, rest, i, -, -, -, he⟩ | ⟨e, rest, -, hpre⟩ |
    ⟨rest, -, hret⟩ | ⟨d, rest, hi, -⟩
  · exact .inl (micro_frame hm).2.2
  · exact .inl (micro_frame hm).2.2
  · exact .inl (exec_frame he).2
  · obtain ⟨-, rfl⟩ := preempt_eq_next.1 hpre
    exact .inr (.inl ⟨rfl, rfl, rfl, rfl⟩)
  · obtain ⟨-, f, fs, hb, rfl⟩ := handlerReturn_eq_next.1 hret
    exact .inr (.inr ⟨hb, rfl, rfl⟩)
  · have hpow : (Input.powerCycle d).isPower = false := hnp _ (by simp [hi])
    cases hpow

/-- Settles O56, by induction on the run: no step changes the configuration. -/
theorem configurationNeverChanges : Obligations.ConfigurationNeverChanges := by
  intro s t n hrun
  exact run_induction (P := fun u => u.cfg = s.cfg) (fun u v hu hst => (step_cfg hst).trans hu) n rfl hrun

/-! ### The state after reset (10_state.md R38) -/

/-- `WAKE` exists after reset exactly when `HAS_WAKE` (R31). -/
theorem RegBlock.reset_wake_isSome (c : Cfg) (d : ResetDraw) : (RegBlock.reset c d).wake.isSome = c.hasWake := by
  cases h : c.hasWake <;> simp [RegBlock.reset, h]

/-- `pll_div` after reset has `DIV_WIDTH` bits (R32). -/
theorem RegBlock.reset_pllDiv_lt (c : Cfg) (d : ResetDraw) :
    (RegBlock.reset c d).pllDiv.toNat < 2 ^ c.divWidth := by
  simp only [RegBlock.reset, BitVec.toNat_ofNat]
  exact (Nat.mod_le _ _).trans_lt (Nat.mod_lt _ (by positivity))

/-- The draws that leave a given register block and a given `IE` (R38); the draw for an absent `WAKE` has no effect. -/
def RegBlock.draw (r : RegBlock) (ie : Bool) : ResetDraw :=
  ⟨r.cg0, r.cg1, r.wake.getD 0, r.pllDiv, r.selPll, ie⟩

/-- Every register block that the configuration allows is the one after reset for its own draws (R31, R32, R38). -/
theorem RegBlock.reset_draw {c : Cfg} {r : RegBlock} (ie : Bool) (hw : r.wake.isSome = c.hasWake)
    (hd : r.pllDiv.toNat < 2 ^ c.divWidth) : RegBlock.reset c (r.draw ie) = r := by
  obtain ⟨cg0, cg1, wake, pllDiv, selPll⟩ := r
  have hdiv : BitVec.ofNat 8 (pllDiv.toNat % 2 ^ c.divWidth) = pllDiv := by
    rw [Nat.mod_eq_of_lt hd, BitVec.ofNat_toNat, BitVec.setWidth_eq]
  have hwake : (if c.hasWake then some (wake.getD 0) else none) = wake := by
    rw [← hw]
    cases wake <;> rfl
  simp only [RegBlock.reset, RegBlock.draw, hdiv, hwake]

/-- The configuration check asks for room for one context (R6, R23). -/
theorem nCtx_pos_of_wf {c : Cfg} (h : c.wf = true) : 1 ≤ c.nCtx := by
  have hr := (Cfg.wf_iff.1 h).1
  simp only [Cfg.rangesOk, Bool.and_eq_true, decide_eq_true_eq] at hr
  exact hr.2

/-- The state after reset is legal (R38, R191, R194). -/
theorem inv_resetWith {c : Cfg} (d : ResetDraw) (h : c.wf = true) : Inv (State.resetWith c d) where
  cfgWf := h
  safeIff := rfl
  masked := nofun
  belowOutside := by simp [State.resetWith]
  depthOk := nCtx_pos_of_wf h
  topLatches := trivial
  belowLatches := by simp [State.resetWith]
  wakeIff := RegBlock.reset_wake_isSome c d
  divFits := RegBlock.reset_pllDiv_lt c d

/-- Settles O50: legality does not speak of the inputs, and the state after reset is legal. -/
theorem resetStateIsLegal : Obligations.ResetStateIsLegal :=
  fun _ d l h => inv_setInputs l (inv_resetWith d h)

/-- Settles O53: the fixed part by definition; a register block and an `IE` are left by their own draws. -/
theorem resetLeavesTheBlockLockedAndIdle : Obligations.ResetLeavesTheBlockLockedAndIdle :=
  fun _ _ => ⟨fun _ => ⟨rfl, rfl, rfl, rfl, rfl⟩,
    fun r ie hw hd => ⟨r.draw ie, RegBlock.reset_draw ie hw hd, rfl⟩⟩

/-! ### Byte accesses that stop (10_state.md R34; 20_memory.md R50) -/

/-- No register is found at an address that none of the five has (R50). -/
theorem regAt_eq_none {c : Cfg} {a : Nat} (h : ∀ r, a ≠ addrOf c r) : regAt c a = none :=
  Option.eq_none_iff_forall_ne_some.2 fun r hr => h r (addrOf_of_regAt hr)

/-- Settles O42, by what is found at the address: an encoded register, or nothing. -/
theorem otherByteAccessesStop : Obligations.OtherByteAccessesStop := by
  intro s v hwf
  refine ⟨?_, ?_⟩
  · intro r hr
    have hat : regAt s.cfg (addrOf s.cfg r) = some r := regAt_addrOf hwf r (by rintro rfl; simp at hr)
    rcases hr with rfl | rfl <;> simp [memRead, memWrite, hat]
  · intro a ha
    simp [memRead, memWrite, regAt_eq_none ha]

/-! ### The gated bit after GATEID (10_state.md R29, R30, R37; 42_gate.md R133) -/

/-- A binding is never bit 0, the value for "no binding" (R111, R118). -/
theorem resolve_bit_ne_zero {c : Cfg} {id : Identity} {r : Resolved} (h : resolve c id = some r) : r.bit ≠ 0 := by
  unfold resolve at h
  split at h
  · cases h
  split at h
  · obtain rfl := Option.some.inj h; assumption
  split at h
  · obtain rfl := Option.some.inj h; assumption
  split at h
  · obtain rfl := Option.some.inj h; simp_all
  · cases h

/-- A gate command leaves the bit of its one-hot mask at `off`, whatever the byte was (R112, R130). -/
theorem gateValue_maskOf_bit (off : Bool) (cur : Byte) (b : BitPos) :
    (gateValue off cur (maskOf b)).getLsbD b.toNat = off := by
  have hb : b.toNat < 8 := b.isLt
  cases off <;> simp [gateValue, maskOf, hb]

/-- GATEID of a bound identity completes, with the read-modify-write of the resolved register under the mask of its bit
(R90, R130, R133). -/
theorem runCommand_gateid_regs {s : State} {id : Identity} {g : GateReg} {b : BitPos} {cur : Byte} (off : Bool)
    (hp : s.top.phase = .idle) (hs : s.safe = false) (hr : resolve s.cfg id = some ⟨g, b⟩)
    (hc : s.regs.gate g = some cur) :
    ∃ t, runCommand (.gateid id off) s = .next t ∧ t.regs = s.regs.setGate g (gateValue off cur (maskOf b)) := by
  rw [runCommand, exec_gateid_of_idle id off hp hs, hr, andThen_next]
  exact ⟨_, microRun_gate (g := g) (mask := maskOf b) (off := off) rfl rfl rfl rfl hc rfl, rfl⟩

/-- `Gated` of a bit that can be bound, in group 0 (R29, R37). -/
theorem gated_group0 {b : BitPos} (hb : b ≠ 0) (s : State) :
    gated .group0 b s = some (s.regs.cg0.getLsbD b.toNat) := if_neg hb

/-- `Gated` of a bit that can be bound, in group 1 (R30, R37). -/
theorem gated_group1 {b : BitPos} (hb : b ≠ 0) (s : State) :
    gated .group1 b s = some (s.regs.cg1.getLsbD b.toNat) := if_neg hb

/-- Settles O18: GATEID writes the resolved register, and the bit written is a gated bit with the value `off`. -/
theorem gatedShowsTheLastGateCommand : Obligations.GatedShowsTheLastGateCommand := by
  intro id off s b hp hs
  refine ⟨fun hr => ?_, fun hr => ?_⟩
  · obtain ⟨t, ht, hregs⟩ := runCommand_gateid_regs off hp hs hr rfl
    have hb : b ≠ 0 := resolve_bit_ne_zero hr
    refine ⟨t, ht, ?_⟩
    rw [gated_group0 hb, hregs]
    exact congrArg some (gateValue_maskOf_bit off _ b)
  · obtain ⟨t, ht, hregs⟩ := runCommand_gateid_regs off hp hs hr rfl
    have hb : b ≠ 0 := resolve_bit_ne_zero hr
    refine ⟨t, ht, ?_⟩
    rw [gated_group1 hb, hregs]
    exact congrArg some (gateValue_maskOf_bit off _ b)

end Sys2Proof.Machine

/-! SUPPORT. What a micro-operation and a whole command can do to the register block, and the proofs of the statements of
20_memory.md. -/

namespace Sys2Proof.Machine

/-! ### What a micro-operation does to the register block (20_memory.md R56, R62, R64) -/

/-- Only the register `r` was written: the others are those of `a` (R51, R53). -/
def RegBlock.WrittenAt (a b : RegBlock) : Reg → Prop
  | .gate g => ∃ v, b = a.setGate g v
  | .pllDiv => ∃ d, b = { a with pllDiv := d }
  | .cfgCtrl => ∃ e, b = { a with selPll := e }

/-- A gate register that is not the one written keeps its byte. -/
theorem RegBlock.WrittenAt.gate_eq {a b : RegBlock} {r : Reg} (h : a.WrittenAt b r) {g : GateReg} (hr : r ≠ .gate g) :
    b.gate g = a.gate g := by
  cases r with
  | gate k =>
    obtain ⟨v, rfl⟩ := h
    have hgk : g ≠ k := fun hgk => hr (congrArg Reg.gate hgk.symm)
    exact RegBlock.gate_setGate_other v hgk
  | pllDiv => obtain ⟨d, rfl⟩ := h; cases g <;> rfl
  | cfgCtrl => obtain ⟨e, rfl⟩ := h; cases g <;> rfl

theorem RegBlock.WrittenAt.pllDiv_eq {a b : RegBlock} {r : Reg} (h : a.WrittenAt b r) (hr : r ≠ .pllDiv) :
    b.pllDiv = a.pllDiv := by
  cases r with
  | gate g => obtain ⟨v, rfl⟩ := h; exact RegBlock.setGate_pllDiv a g v
  | pllDiv => exact absurd rfl hr
  | cfgCtrl => obtain ⟨e, rfl⟩ := h; rfl

theorem RegBlock.WrittenAt.selPll_eq {a b : RegBlock} {r : Reg} (h : a.WrittenAt b r) (hr : r ≠ .cfgCtrl) :
    b.selPll = a.selPll := by
  cases r with
  | gate g => obtain ⟨v, rfl⟩ := h; exact RegBlock.setGate_selPll a g v
  | pllDiv => obtain ⟨d, rfl⟩ := h; rfl
  | cfgCtrl => exact absurd rfl hr

/-- A micro-operation that goes on either makes no write access and leaves the register block as it was, or makes its write
inside the protocol and changes at most the register it names (R56, R62). -/
theorem micro_regs {s t : State} (h : micro s = .next t) :
    (t.regs = s.regs ∧ ∀ r, accessOf s ≠ some (.write r)) ∨
    (∃ r, accessOf s = some (.write r) ∧ (s.safe = true ∧ s.ie = false) ∧ s.regs.WrittenAt t.regs r) := by
  rcases hp : s.top.phase
  case idle => rw [micro_of_idle hp] at h; obtain rfl := next_inj.1 h; simp [accessOf, hp]
  case ready => rw [micro_of_ready hp] at h; obtain rfl := next_inj.1 h; simp [accessOf, hp]
  case masked => rw [micro_of_masked hp] at h; obtain rfl := next_inj.1 h; simp [accessOf, hp]
  case opened =>
    rw [micro_of_opened hp, atOpen_eq_next] at h
    rcases h with ⟨hk, h⟩ | ⟨hk, h⟩
    · obtain ⟨g, v, hg, -, rfl⟩ := sRead_eq_next.1 h
      exact .inl ⟨rfl, by simp [accessOf, hp, hk, hg]⟩
    · obtain ⟨d, -, hheld, rfl⟩ := sWrDiv_eq_next.1 h
      exact .inr ⟨.pllDiv, by simp [accessOf, hp, hk], hheld, _, rfl⟩
  case loaded =>
    rw [micro_of_loaded hp] at h
    obtain ⟨g, off, cur, mask, hg, -, -, -, hheld, -, rfl⟩ := sWrite_eq_next.1 h
    exact .inr ⟨.gate g, by simp [accessOf, hp, hg], hheld, _, rfl⟩
  case stored1 =>
    rw [micro_of_stored1 hp] at h
    obtain ⟨b, -, hheld, rfl⟩ := sWrSel_eq_next.1 h
    exact .inr ⟨.cfgCtrl, by simp [accessOf, hp], hheld, _, rfl⟩
  case stored => rw [micro_of_stored hp] at h; obtain rfl := next_inj.1 h; simp [accessOf, hp]
  case closed => rw [micro_of_closed hp] at h; obtain ⟨b, -, rfl⟩ := sRestore_eq_next.1 h; simp [accessOf, hp]
  case get0 => rw [micro_of_get0 hp] at h; obtain rfl := next_inj.1 h; simp [accessOf, hp]
  case get1 => rw [micro_of_get1 hp] at h; obtain ⟨d, -, rfl⟩ := sRdSel_eq_next.1 h; simp [accessOf, hp]

/-- A micro-operation that changes the register block is a write inside the protocol (R62). -/
theorem micro_write_of_regs_ne {s t : State} (h : micro s = .next t) (hne : t.regs ≠ s.regs) :
    s.safe = true ∧ s.ie = false ∧ ∃ r, accessOf s = some (.write r) := by
  rcases micro_regs h with ⟨hregs, -⟩ | ⟨r, hr, ⟨hsafe, hie⟩, -⟩
  · exact absurd hregs hne
  · exact ⟨hsafe, hie, r, hr⟩

/-- Which access comes next does not depend on the inputs. -/
@[simp] theorem accessOf_setInputs (s : State) (l : List Input) : accessOf (s.setInputs l) = accessOf s := rfl

/-- An accepted command changes no register (R91). -/
theorem exec_regs {i : Instr} {s t : State} (h : exec i s = .next t) : t.regs = s.regs := by
  obtain ⟨-, -, ht, -⟩ := exec_eq_next h
  rw [ht, State.setTop_regs]

/-- Settles O38: of the steps that are no power cycle only a micro-operation can change a register, by a write; and a write
goes on only inside the protocol. -/
theorem registersChangeOnlyInsideTheProtocol : Obligations.RegistersChangeOnlyInsideTheProtocol := by
  refine ⟨?_, ?_⟩
  · intro s t hnp hst hne
    rcases step_cases hst with ⟨-, hm⟩ | ⟨rest, -, hm⟩ | ⟨w, rest, i, -, -, -, he⟩ | ⟨e, rest, -, hpre⟩ |
      ⟨rest, -, hret⟩ | ⟨d, rest, hi, -⟩
    · exact micro_write_of_regs_ne hm hne
    · simpa using micro_write_of_regs_ne hm hne
    · exact absurd (exec_regs he) hne
    · obtain ⟨-, rfl⟩ := preempt_eq_next.1 hpre; exact absurd rfl hne
    · obtain ⟨-, f, fs, -, rfl⟩ := handlerReturn_eq_next.1 hret; exact absurd rfl hne
    · have hpow : (Input.powerCycle d).isPower = false := hnp _ (by simp [hi])
      cases hpow
  · intro s t r hr hout hm
    rcases micro_regs hm with ⟨-, hnone⟩ | ⟨-, -, hheld, -⟩
    · exact hnone r hr
    · exact hout hheld

/-- Settles O39: the register block is as it was, or only the register of the write access was written. -/
theorem microOperationChangesOnlyTheRegisterItWrites : Obligations.MicroOperationChangesOnlyTheRegisterItWrites := by
  intro s t hm
  rcases micro_regs hm with ⟨hregs, -⟩ | ⟨r, hr, -, hw⟩
  · rw [hregs]
    exact ⟨fun _ _ => rfl, fun _ => rfl, fun _ => rfl⟩
  · have hother : ∀ q, accessOf s ≠ some (.write q) → r ≠ q := fun q hq hrq => hq (hrq ▸ hr)
    exact ⟨fun g hg => hw.gate_eq (hother _ hg), fun hd => hw.pllDiv_eq (hother _ hd),
      fun hs => hw.selPll_eq (hother _ hs)⟩

/-! ### Byte accesses by address (20_memory.md R50, R51) -/

/-- A byte read at the address of a register answers its byte, if the register exists. -/
theorem memRead_addrOf_gate {s : State} {g : GateReg} {v : Byte}
    (hat : regAt s.cfg (addrOf s.cfg (.gate g)) = some (.gate g)) (hg : s.regs.gate g = some v) :
    memRead (addrOf s.cfg (.gate g)) s = .next v := by
  simp only [memRead, hat]
  exact regRead_eq_next.2 hg

/-- After a write of one gate register every other address reads as before (R51). -/
theorem memRead_setGate_other {s t : State} {g : GateReg} {v : Byte} {a : Nat} (hc : t.cfg = s.cfg)
    (hr : t.regs = s.regs.setGate g v) (ha : a ≠ addrOf s.cfg (.gate g)) : memRead a t = memRead a s := by
  refine memRead_congr hc a fun k hk => ?_
  have hkg : k ≠ g := by rintro rfl; exact ha hk
  rw [hr, RegBlock.gate_setGate_other v hkg]

/-- Settles O41: the register is found at its address, where `MemRead` and `MemWrite` are its read and its write by name. -/
theorem byteAccessByAddress : Obligations.ByteAccessByAddress := by
  intro s g cur v hwf hwake hcur
  have hexists : Reg.gate g = .gate .wake → s.cfg.hasWake = true := by
    intro hg
    obtain rfl := Reg.gate.inj hg
    rw [← hwake]
    exact Option.isSome_iff_exists.2 ⟨cur, hcur⟩
  have hat : regAt s.cfg (addrOf s.cfg (.gate g)) = some (.gate g) := regAt_addrOf hwf _ hexists
  refine ⟨memRead_addrOf_gate hat hcur, fun hsafe hie => ?_⟩
  refine ⟨_, memWrite_eq_next.2 ⟨g, hat, ⟨hsafe, hie⟩, ⟨cur, hcur⟩, rfl⟩, rfl, ?_, ?_⟩
  · exact memRead_addrOf_gate (s := s.setRegs (s.regs.setGate g v)) hat (RegBlock.gate_setGate_same v hcur)
  · exact fun a ha => memRead_setGate_other rfl rfl ha

/-! ### What a whole command does to the state (20_memory.md R64; 40_protocol.md R90) -/

/-- What a command may do to the register block: nothing, a write of the gate register that it targets, or, for SETHCLK, of
the two fields (R131 to R133, R151, R155). -/
def CommandRegs (c : Cfg) (i : Instr) (a b : RegBlock) : Prop :=
  b = a ∨ (∃ g v, gateTarget c i = some g ∧ b = a.setGate g v) ∨
    ((∃ hz, i = .sethclk hz) ∧ ∃ d e, b = { a with pllDiv := d, selPll := e })

/-- What the `GATE` sequence of a command accepted in a legal state with `SAFE = 0` does: a write of its target, and nothing
else but the top frame changes (R90, R130). -/
theorem microRun_gateCommand_eq_next {s t : State} (h : Inv s) (hs : s.safe = false) {f : Frame} {g : GateReg}
    {mask : Byte} {off : Bool} (hg : g = .wake → s.cfg.hasWake = true)
    (hm : microRun 6 (s.setTop (f.gateCommand g mask off)) = .next t) :
    ∃ v u, t = { s with regs := s.regs.setGate g v, top := u } := by
  obtain ⟨cur, hcur⟩ := h.gate_some hg
  rw [microRun_gate (s := s.setTop (f.gateCommand g mask off)) rfl rfl rfl rfl hcur rfl, State.setTop, ← hs] at hm
  exact ⟨_, _, next_inj.1 hm⟩

/-- Everything that a whole command does in a legal state: the top frame changes, and of the rest only the registers that
`CommandRegs` allows. -/
theorem runCommand_eq_next {i : Instr} {s t : State} (h : Inv s) (hrun : runCommand i s = .next t) :
    ∃ r u, CommandRegs s.cfg i s.regs r ∧ t = { s with regs := r, top := u } := by
  obtain ⟨a, he, hm⟩ := andThen_eq_next.1 hrun
  obtain ⟨hp, hs, -, -⟩ := exec_eq_next he
  cases i with
  | gate0 mask off =>
    rw [exec_gate0_of_idle mask off hp hs] at he
    obtain rfl := next_inj.1 he
    obtain ⟨v, u, rfl⟩ := microRun_gateCommand_eq_next (g := .cg0) h hs nofun hm
    exact ⟨_, u, .inr (.inl ⟨_, v, rfl, rfl⟩), rfl⟩
  | gate1 mask off =>
    rw [exec_gate1_of_idle mask off hp hs] at he
    obtain rfl := next_inj.1 he
    obtain ⟨v, u, rfl⟩ := microRun_gateCommand_eq_next (g := .cg1) h hs nofun hm
    exact ⟨_, u, .inr (.inl ⟨_, v, rfl, rfl⟩), rfl⟩
  | gateid id off =>
    rw [exec_gateid_of_idle id off hp hs] at he
    cases hr : resolve s.cfg id with
    | none =>
      simp only [hr] at he
      obtain rfl := next_inj.1 he
      rw [microRun_of_idle rfl] at hm
      exact ⟨_, _, .inl rfl, next_inj.1 hm⟩
    | some b =>
      simp only [hr] at he
      obtain rfl := next_inj.1 he
      obtain ⟨v, u, rfl⟩ := microRun_gateCommand_eq_next h hs (resolve_wake hr) hm
      exact ⟨_, u, .inr (.inl ⟨_, v, by simp [gateTarget, hr], rfl⟩), rfl⟩
  | sethclk hz =>
    rw [exec_sethclk_of_idle hz hp hs] at he
    cases hq : quantize hz with
    | none =>
      simp only [hq] at he
      obtain rfl := next_inj.1 he
      rw [microRun_of_idle rfl] at hm
      exact ⟨_, _, .inl rfl, next_inj.1 hm⟩
    | some q =>
      simp only [hq] at he
      obtain rfl := next_inj.1 he
      rw [microRun_set rfl rfl rfl rfl, ← hs] at hm
      exact ⟨_, _, .inr (.inr ⟨⟨hz, rfl⟩, _, _, rfl⟩), next_inj.1 hm⟩
  | gethclk =>
    rw [exec_gethclk_of_idle hp hs] at he
    obtain rfl := next_inj.1 he
    rw [microRun_get rfl] at hm
    exact ⟨_, _, .inl rfl, next_inj.1 hm⟩

/-- Settles O43, by the three things a command may do to the register block; the fields of SETHCLK are no bytes that
`MemRead` sees (R34). -/
theorem commandLeavesOtherAddressesUnchanged : Obligations.CommandLeavesOtherAddressesUnchanged := by
  intro i s t hinv hrun
  obtain ⟨r, u, hr, rfl⟩ := runCommand_eq_next hinv hrun
  refine ⟨fun a ha => ?_, fun hi => ?_, rfl, rfl, rfl, rfl⟩
  · rcases hr with rfl | ⟨g, v, hg, rfl⟩ | ⟨-, d, e, rfl⟩
    · exact memRead_congr rfl a fun _ _ => rfl
    · exact memRead_setGate_other rfl rfl (ha g hg)
    · exact memRead_congr rfl a fun g _ => by cases g <;> rfl
  · rcases hr with rfl | ⟨g, v, -, rfl⟩ | ⟨⟨hz, hset⟩, -⟩
    · exact ⟨rfl, rfl⟩
    · exact ⟨RegBlock.setGate_pllDiv _ g v, RegBlock.setGate_selPll _ g v⟩
    · exact absurd hset (hi hz)

end Sys2Proof.Machine

/-! SUPPORT. Facts about decoding, the opcode map and the frequency result that the statements of 30_encoding.md need, and
the proofs of those statements. -/

namespace Sys2Proof

/-! ### Decoding and encoding are inverse (30_encoding.md R71 to R76) -/

/-- Format M is read exactly when its reserved bits are 0 (R72). -/
theorem decodeM_eq_ok {w : CmdWord} {mk : Byte → Bool → Instr} {i : Instr} :
    decodeM w mk = .ok i ↔ w.extractLsb' 9 23 = 0#23 ∧ mk (w.extractLsb' 0 8) (w.getLsbD 8) = i := by
  unfold decodeM
  split <;> simp [*]

/-- Format I is read exactly when its reserved bits are 0 (R73). -/
theorem decodeI_eq_ok {w : CmdWord} {mk : Identity → Bool → Instr} {i : Instr} :
    decodeI w mk = .ok i ↔ w.extractLsb' 17 15 = 0#15 ∧ mk (w.extractLsb' 0 16) (w.getLsbD 16) = i := by
  unfold decodeI
  split <;> simp [*]

/-- Format N is read exactly when its reserved bits are 0 (R75). -/
theorem decodeN_eq_ok {w : CmdWord} {c i : Instr} : decodeN w c = .ok i ↔ w.extractLsb' 0 32 = 0#32 ∧ c = i := by
  unfold decodeN
  split <;> simp [*]

/-- A word with zero reserved bits is the format N word of its opcode. -/
theorem encodeN_decode {w : CmdWord} {op : BitVec 8} (h : opcodeOf w = op) (hz : w.extractLsb' 0 32 = 0#32) :
    encodeF op 0#32 = w :=
  hz ▸ encodeF_decode h

theorem decode_encode (i : Instr) : decode (encode i) = .ok i := by
  cases i with
  | gate0 mask off => simp [decode, encode, opcodeOf_encodeM, decodeM_encodeM]
  | gate1 mask off => simp [decode, encode, opcodeOf_encodeM, decodeM_encodeM]
  | gateid id off => simp [decode, encode, opcodeOf_encodeI, decodeI_encodeI]
  | sethclk hz => simp [decode, encode, opcodeOf_encodeF, low_encodeF]
  | gethclk => rfl

/-- The word of a command is the only word that decodes to it, by the opcode of the word. -/
theorem encode_of_decode {w : CmdWord} {i : Instr} (h : decode w = .ok i) : encode i = w := by
  unfold decode at h
  split at h
  case isTrue hop =>
    obtain ⟨hz, rfl⟩ := decodeM_eq_ok.1 h
    exact encodeM_decode hop hz
  split at h
  case isTrue hop =>
    obtain ⟨hz, rfl⟩ := decodeM_eq_ok.1 h
    exact encodeM_decode hop hz
  split at h
  case isTrue hop =>
    obtain ⟨hz, rfl⟩ := decodeI_eq_ok.1 h
    exact encodeI_decode hop hz
  split at h
  case isTrue hop =>
    obtain rfl := Except.ok.inj h
    exact encodeF_decode hop
  split at h
  case isTrue hop =>
    obtain ⟨hz, rfl⟩ := decodeN_eq_ok.1 h
    exact encodeN_decode hop hz
  cases h

theorem decode_eq_ok {w : CmdWord} {i : Instr} : decode w = .ok i ↔ encode i = w :=
  ⟨encode_of_decode, fun h => h ▸ decode_encode i⟩

/-- Settles O1: each format reads back its own fields, and the opcode chooses the format; no operand is illegal (R79). -/
theorem encodedCommandDecodesToItself : Obligations.EncodedCommandDecodesToItself :=
  fun i _ => decode_encode i

/-- Settles O2: the opcode, the operand fields and the zero reserved bits are all 40 bits of the word. -/
theorem decodedWordIsTheWordOfItsCommand : Obligations.DecodedWordIsTheWordOfItsCommand :=
  fun _ _ => encode_of_decode

/-! ### The opcode map (30_encoding.md R76) -/

/-- A field that the mask covers is the pattern's field in every word that the mask takes to the pattern. -/
theorem field_of_masked {w mask pattern : CmdWord} {a n : Nat} (h : w &&& mask = pattern)
    (hm : mask.extractLsb' a n = BitVec.allOnes n) : w.extractLsb' a n = pattern.extractLsb' a n := by
  rw [← h, BitVec.extractLsb'_and, hm, BitVec.and_allOnes]

/-- Every mask of the map covers the opcode. -/
theorem opcodeOf_of_masked {w : CmdWord} {r : OpcodeRow} (hr : r ∈ opcodeTable) (h : w &&& r.mask = r.pattern) :
    opcodeOf w = opcodeOf r.pattern := by
  have hmask : ∀ r ∈ opcodeTable, r.mask.extractLsb' 32 8 = BitVec.allOnes 8 := by decide
  exact field_of_masked h (hmask r hr)

/-- A word that matches a row is the word of a command of the row: its opcode is the row's and its reserved bits are 0. -/
theorem exists_encode_of_masked {w : CmdWord} {r : OpcodeRow} (hr : r ∈ opcodeTable) (h : w &&& r.mask = r.pattern) :
    ∃ i, encode i = w ∧ i.mnemonic = r.mnemonic := by
  have hop := opcodeOf_of_masked hr h
  simp only [opcodeTable, List.mem_cons, List.not_mem_nil, or_false] at hr
  rcases hr with rfl | rfl | rfl | rfl | rfl
  · exact ⟨.gate0 _ _, encodeM_decode hop (field_of_masked h (by decide)), rfl⟩
  · exact ⟨.gate1 _ _, encodeM_decode hop (field_of_masked h (by decide)), rfl⟩
  · exact ⟨.gateid _ _, encodeI_decode hop (field_of_masked h (by decide)), rfl⟩
  · exact ⟨.sethclk _, encodeF_decode hop, rfl⟩
  · exact ⟨.gethclk, encodeN_decode hop (field_of_masked h (by decide)), rfl⟩

/-- The word of every command matches the row with its mnemonic. -/
theorem exists_row_of_encode (i : Instr) :
    ∃ r ∈ opcodeTable, r.mnemonic = i.mnemonic ∧ encode i &&& r.mask = r.pattern := by
  have hrow : Laws.EncodingSpellsItsRow.Statement i := by
    cases i with
    | gate0 mask off => exact Laws.EncodingSpellsItsRow.gate0 mask off
    | gate1 mask off => exact Laws.EncodingSpellsItsRow.gate1 mask off
    | gateid id off => exact Laws.EncodingSpellsItsRow.gateid id off
    | sethclk hz => exact Laws.EncodingSpellsItsRow.sethclk hz
    | gethclk => exact Laws.EncodingSpellsItsRow.gethclk
  obtain ⟨r, hr, hmn, hs⟩ := hrow
  exact ⟨r, hr, hmn, beq_iff_eq.1 hs⟩

/-- A row of the map is known by its mnemonic. -/
theorem row_eq_of_mnemonic : ∀ r ∈ opcodeTable, ∀ q ∈ opcodeTable, r.mnemonic = q.mnemonic → r = q := by decide

/-- A row of the map is known by its opcode. -/
theorem row_eq_of_opcode : ∀ r ∈ opcodeTable, ∀ q ∈ opcodeTable, opcodeOf r.pattern = opcodeOf q.pattern → r = q := by
  decide

/-- Settles O3: the words that match a row are the words of its commands, and the opcodes of the rows differ. -/
theorem wordSpellsACommandExactlyWhenItsRowMatches : Obligations.WordSpellsACommandExactlyWhenItsRowMatches := by
  refine ⟨fun w r hr => ⟨fun hm => ?_, ?_⟩, fun w r q hr hq hmr hmq => row_eq_of_opcode r hr q hq ?_⟩
  · obtain ⟨i, hi, hmn⟩ := exists_encode_of_masked hr hm
    exact ⟨i, decode_eq_ok.2 hi, hmn⟩
  · rintro ⟨i, hi, hmn⟩
    obtain rfl := decode_eq_ok.1 hi
    obtain ⟨q, hq, hqmn, hqm⟩ := exists_row_of_encode i
    obtain rfl := row_eq_of_mnemonic q hq r hr (hqmn.trans hmn)
    exact hqm
  · rw [← opcodeOf_of_masked hr hmr, opcodeOf_of_masked hq hmq]

/-! ### Invalid words (30_encoding.md R78) -/

/-- A word is `Invalid` exactly when it is the word of no command. -/
theorem decode_eq_error_iff {w : CmdWord} : (∃ e, decode w = .error e) ↔ ∀ i, encode i ≠ w := by
  simp only [ne_eq, ← decode_eq_ok]
  cases decode w <;> simp

/-- The words that match no row of the map are those of no command. -/
theorem matches_no_row_iff {w : CmdWord} :
    (∀ r ∈ opcodeTable, w &&& r.mask ≠ r.pattern) ↔ ∀ i, encode i ≠ w := by
  constructor
  · rintro hno i rfl
    obtain ⟨r, hr, -, hm⟩ := exists_row_of_encode i
    exact hno r hr hm
  · intro hno r hr hm
    obtain ⟨i, hi, -⟩ := exists_encode_of_masked hr hm
    exact hno i hi

/-- Opcode `0x00` and the opcodes from `0x06` up are no command's. -/
theorem decode_unknownOpcode {w : CmdWord} (h : opcodeOf w = 0#8 ∨ 6#8 ≤ opcodeOf w) :
    decode w = .error .unknownOpcode := by
  have hne : ∀ op, 0#8 < op → op < 6#8 → opcodeOf w ≠ op := by
    rintro op hpos hlt rfl
    bv_omega
  simp [decode, hne]

end Sys2Proof

namespace Sys2Proof.Machine

theorem present_of_invalid {w : CmdWord} {e : InvalidWord} (h : decode w = .error e) (s : State) :
    present w s = .refused (.invalidWord e) := by
  simp [present, h]

/-- Settles O4: the words that match no row are the words of no command, the unlisted opcodes are no command's, and
presenting an invalid word is refused. -/
theorem invalidWordIsRefused : Obligations.InvalidWordIsRefused := by
  intro w
  refine ⟨matches_no_row_iff.trans decode_eq_error_iff.symm, fun hop => ⟨_, decode_unknownOpcode hop⟩, ?_⟩
  intro e s rest he hp hi
  rw [step_of_command_idle hi hp, present_of_invalid he]

/-! ### Words and lines written out (95_test_vectors.md; 30_encoding.md R80) -/

/-- Settles O5: the words of the five commands, and one with a reserved bit set. -/
theorem sampleWordsDecodeToTheirCommands : Obligations.SampleWordsDecodeToTheirCommands := by
  refine ⟨?_, ?_, ?_, ?_, ?_, by decide⟩ <;> exact decode_eq_ok.2 (by decide)

/-- Settles O6, by reading each line. -/
theorem sampleLinesAssembleToTheirCommands : Obligations.SampleLinesAssembleToTheirCommands := by
  unfold Obligations.SampleLinesAssembleToTheirCommands
  decide

/-! ### The result of GETHCLK (30_encoding.md R77; 43_hclk.md R155) -/

/-- No frequency is above the 480 MHz reference, which a divider of 1 gives. -/
theorem hclkHz_le_fPll (d : Nat) (sel : Bool) : hclkHz d sel ≤ fPll := by
  have hosc : fOsc / d ≤ fOsc := Nat.div_le_self _ _
  have hpll : fPll / d ≤ fPll := Nat.div_le_self _ _
  unfold hclkHz
  split
  · split
    · decide
    · exact hpll
  · split
    · decide
    · exact hosc.trans (by decide)

/-- Settles O28: the frequency is at most 480 MHz, which 32 bits hold. -/
theorem frequencyResultFitsItsWord : Obligations.FrequencyResultFitsItsWord := by
  intro d sel
  have hle : hclkHz d.toNat sel ≤ 480000000 := hclkHz_le_fPll d.toNat sel
  refine ⟨?_, hle⟩
  rw [hclkOf, BitVec.toNat_ofNat, Nat.mod_eq_of_lt (by omega)]

end Sys2Proof.Machine

/-! SUPPORT. The micro-operations as one relation, what `S_ACCEPT` writes for each command, and the proofs of the statements
of 40_protocol.md. -/

namespace Sys2Proof.Machine

/-! ### Everything a micro-operation can do (40_protocol.md R90 to R101) -/

/-- One micro-operation as a relation: what must hold for it and the state it leads to. `micro_eq_next` says that `micro` is
this relation. -/
inductive MicroStep (s : State) : State → Prop
  | wait (hp : s.top.phase = .idle) : MicroStep s s
  | disable (hp : s.top.phase = .ready) :
      MicroStep s { s with ie := false, top := { s.top with saved := some s.ie, phase := .masked } }
  | enter (hp : s.top.phase = .masked) : MicroStep s { s with safe := true, top := { s.top with phase := .opened } }
  | read {g : GateReg} {v : Byte} (hp : s.top.phase = .opened) (hk : s.top.kind = some .gate)
      (hg : s.top.tgt = some g) (hv : s.regs.gate g = some v) :
      MicroStep s { s with top := { s.top with tmp := some v, phase := .loaded } }
  | write {g : GateReg} {off : Bool} {cur mask v : Byte} (hp : s.top.phase = .loaded) (hg : s.top.tgt = some g)
      (hoff : s.top.off = some off) (hcur : s.top.tmp = some cur) (hmask : s.top.m = some mask)
      (hheld : s.safe = true ∧ s.ie = false) (hv : s.regs.gate g = some v) :
      MicroStep s { s with
        regs := s.regs.setGate g (gateValue off cur mask), top := { s.top with phase := .stored } }
  | writeDiv {d : BitVec 5} (hp : s.top.phase = .opened) (hk : s.top.kind = some .set) (hd : s.top.div = some d)
      (hheld : s.safe = true ∧ s.ie = false) :
      MicroStep s { s with
        regs := { s.regs with pllDiv := storedDiv s.cfg d }, top := { s.top with phase := .stored1 } }
  | writeSel {b : Bool} (hp : s.top.phase = .stored1) (hb : s.top.sel = some b)
      (hheld : s.safe = true ∧ s.ie = false) :
      MicroStep s { s with regs := { s.regs with selPll := b }, top := { s.top with phase := .stored } }
  | leave (hp : s.top.phase = .stored) : MicroStep s { s with safe := false, top := { s.top with phase := .closed } }
  | restore {b : Bool} (hp : s.top.phase = .closed) (hb : s.top.saved = some b) :
      MicroStep s { s with ie := b, top := { s.top with phase := .idle } }
  | readDiv (hp : s.top.phase = .get0) :
      MicroStep s { s with top := { s.top with tdiv := some s.regs.pllDiv, phase := .get1 } }
  | readSel {d : Byte} (hp : s.top.phase = .get1) (hd : s.top.tdiv = some d) :
      MicroStep s { s with top := { s.top with res := some (hclkOf d s.regs.selPll), phase := .idle } }

/-- A micro-operation that goes on is the one that its phase, and at `OPEN` its kind, enables (R90, R104). -/
theorem microStep_of_micro {s t : State} (h : micro s = .next t) : MicroStep s t := by
  rcases hp : s.top.phase
  case idle => rw [micro_of_idle hp] at h; obtain rfl := next_inj.1 h; exact .wait hp
  case ready => rw [micro_of_ready hp] at h; obtain rfl := next_inj.1 h; exact .disable hp
  case masked => rw [micro_of_masked hp] at h; obtain rfl := next_inj.1 h; exact .enter hp
  case opened =>
    rw [micro_of_opened hp, atOpen_eq_next] at h
    rcases h with ⟨hk, h⟩ | ⟨hk, h⟩
    · obtain ⟨g, v, hg, hv, rfl⟩ := sRead_eq_next.1 h; exact .read hp hk hg hv
    · obtain ⟨d, hd, hheld, rfl⟩ := sWrDiv_eq_next.1 h; exact .writeDiv hp hk hd hheld
  case loaded =>
    rw [micro_of_loaded hp] at h
    obtain ⟨g, off, cur, mask, hg, hoff, hcur, hmask, hheld, ⟨v, hv⟩, rfl⟩ := sWrite_eq_next.1 h
    exact .write hp hg hoff hcur hmask hheld hv
  case stored1 =>
    rw [micro_of_stored1 hp] at h
    obtain ⟨b, hb, hheld, rfl⟩ := sWrSel_eq_next.1 h
    exact .writeSel hp hb hheld
  case stored => rw [micro_of_stored hp] at h; obtain rfl := next_inj.1 h; exact .leave hp
  case closed => rw [micro_of_closed hp] at h; obtain ⟨b, hb, rfl⟩ := sRestore_eq_next.1 h; exact .restore hp hb
  case get0 => rw [micro_of_get0 hp] at h; obtain rfl := next_inj.1 h; exact .readDiv hp
  case get1 => rw [micro_of_get1 hp] at h; obtain ⟨d, hd, rfl⟩ := sRdSel_eq_next.1 h; exact .readSel hp hd

theorem micro_of_microStep {s t : State} (h : MicroStep s t) : micro s = .next t := by
  cases h with
  | wait hp => exact micro_of_idle hp
  | disable hp => exact micro_of_ready hp
  | enter hp => exact micro_of_masked hp
  | read hp hk hg hv =>
    exact (micro_of_opened hp).trans (atOpen_eq_next.2 (.inl ⟨hk, sRead_eq_next.2 ⟨_, _, hg, hv, rfl⟩⟩))
  | write hp hg hoff hcur hmask hheld hv =>
    exact (micro_of_loaded hp).trans
      (sWrite_eq_next.2 ⟨_, _, _, _, hg, hoff, hcur, hmask, hheld, ⟨_, hv⟩, rfl⟩)
  | writeDiv hp hk hd hheld =>
    exact (micro_of_opened hp).trans (atOpen_eq_next.2 (.inr ⟨hk, sWrDiv_eq_next.2 ⟨_, hd, hheld, rfl⟩⟩))
  | writeSel hp hb hheld => exact (micro_of_stored1 hp).trans (sWrSel_eq_next.2 ⟨_, hb, hheld, rfl⟩)
  | leave hp => exact micro_of_stored hp
  | restore hp hb => exact (micro_of_closed hp).trans (sRestore_eq_next.2 ⟨_, hb, rfl⟩)
  | readDiv hp => exact micro_of_get0 hp
  | readSel hp hd => exact (micro_of_get1 hp).trans (sRdSel_eq_next.2 ⟨_, hd, rfl⟩)

theorem micro_eq_next {s t : State} : micro s = .next t ↔ MicroStep s t := ⟨microStep_of_micro, micro_of_microStep⟩

/-- Settles O32: each of the four is the micro-operation of its phase. -/
theorem bracketOperationsChangeOnlyFlagAndPhase : Obligations.BracketOperationsChangeOnlyFlagAndPhase :=
  fun _ => ⟨fun hp => micro_of_microStep (.disable hp), fun hp => micro_of_microStep (.enter hp),
    fun hp => micro_of_microStep (.leave hp), fun _ hp hb => micro_of_microStep (.restore hp hb)⟩

/-- Settles O33; the value written is `gateValue`. -/
theorem readAndWriteOfTheTargetRegister : Obligations.ReadAndWriteOfTheTargetRegister :=
  fun _ _ hg => ⟨fun _ hp hk hv => micro_of_microStep (.read hp hk hg hv),
    fun _ _ _ _ hp hcur hmask hoff hsafe hie hv =>
      micro_of_microStep (.write hp hg hoff hcur hmask ⟨hsafe, hie⟩ hv)⟩

/-- Settles O34; the divider kept is `storedDiv`. -/
theorem dividerAndSelectWrites : Obligations.DividerAndSelectWrites :=
  fun _ hsafe hie => ⟨fun _ hp hk hd => micro_of_microStep (.writeDiv hp hk hd ⟨hsafe, hie⟩),
    fun _ hp hb => micro_of_microStep (.writeSel hp hb ⟨hsafe, hie⟩)⟩

/-- Settles O35: neither read asks anything of the flags. -/
theorem dividerAndSelectReads : Obligations.DividerAndSelectReads :=
  fun _ => ⟨fun hp => micro_of_microStep (.readDiv hp), fun _ hp hd => micro_of_microStep (.readSel hp hd)⟩

/-! ### What `S_ACCEPT` writes (40_protocol.md R91, R102, R104) -/

/-- The latches and the phase that the command's own rule gives to its frame (R131 to R133, R151, R155). -/
def acceptLatches (c : Cfg) (i : Instr) (f : Frame) : Frame :=
  match i with
  | .gate0 mask off => f.gateCommand .cg0 mask off
  | .gate1 mask off => f.gateCommand .cg1 mask off
  | .gateid id off =>
    match resolve c id with
    | some r => { f with bit := some r.bit, res := some (r.bit.setWidth 32) }.gateCommand r.reg (maskOf r.bit) off
    | none => { f with bit := some 0, res := some 0 }
  | .sethclk hz =>
    match quantize hz with
    | some q => { f with div := some q.div, sel := some q.sel, res := some 0, kind := some .set, phase := .ready }
    | none => { f with res := some (failWord c) }
  | .gethclk => { f with kind := some .get, phase := .get0 }

/-- Every command is an `S_ACCEPT`, and they differ only in the latches. -/
theorem exec_eq_accept (i : Instr) (s : State) : exec i s = accept i s (acceptLatches s.cfg i) := by
  cases i <;> rfl

theorem exec_eq_next_iff {i : Instr} {s t : State} :
    exec i s = .next t ↔ s.top.phase = .idle ∧ s.safe = false ∧
      t = s.setTop (acceptLatches s.cfg i (s.top.begin (encode i))) := by
  rw [exec_eq_accept, accept_eq_next]

theorem accept_of_unlocked {i : Instr} {s : State} (l : Frame → Frame) (hp : s.top.phase = .idle)
    (hs : s.safe = true) : accept i s l = .refused .unlockedAtAccept := by
  simp [accept, hp, hs]

/-- Settles O10: acceptance asks for `IDLE` and `SAFE = 0`, and what it writes is `acceptLatches` of the configuration and
the old frame. -/
theorem acceptTouchesOnlyTheIssuingFrame : Obligations.AcceptTouchesOnlyTheIssuingFrame := by
  refine ⟨fun i s hp hs => ⟨_, exec_eq_next_iff.2 ⟨hp, hs, rfl⟩⟩, fun i s t h => ?_, ?_⟩
  · obtain ⟨hp, -, ht, hcmd⟩ := exec_eq_next h
    rw [ht]
    exact ⟨hp, hcmd, rfl, rfl, rfl, rfl, rfl, rfl⟩
  · intro i s u t hcfg htop hsafe h
    obtain ⟨hp, hs, rfl⟩ := exec_eq_next_iff.1 h
    refine exec_eq_next_iff.2 ⟨htop ▸ hp, hsafe ▸ hs, ?_⟩
    rw [State.setTop_top, hcfg, htop]

/-- Settles O11. -/
theorem acceptWithUnlockedBlockIsRefused : Obligations.AcceptWithUnlockedBlockIsRefused :=
  fun i s hp hs => (exec_eq_accept i s).trans (accept_of_unlocked _ hp hs)

/-- The two request ranges together are 2 MHz to 120 MHz (R151). -/
theorem quantize_isSome_iff {hz : BitVec 32} :
    (quantize hz).isSome ↔ 2000000 ≤ hz.toNat ∧ hz.toNat ≤ 120000000 := by
  simp only [quantize, inHighRange, inLowRange, decide_eq_true_eq]
  split
  · simp only [Option.isSome_some, true_iff]; omega
  split
  · simp only [Option.isSome_some, true_iff]; omega
  · simp only [Option.isSome_none, Bool.false_eq_true, false_iff]; omega

/-- The divider of an accepted request is 1 to 16 (R20, R159). -/
theorem quantize_div_range {hz : BitVec 32} {q : Divided} (h : quantize hz = some q) :
    1 ≤ q.div.toNat ∧ q.div.toNat ≤ 16 := by
  unfold quantize at h
  split at h
  case isTrue hr =>
    obtain rfl := Option.some.inj h
    simp only [inHighRange, decide_eq_true_eq] at hr
    have hlo : 4 ≤ fPll / hz.toNat := (Nat.le_div_iff_mul_le (by omega)).2 (by simp only [fPll]; omega)
    have hhi : fPll / hz.toNat ≤ 16 := Nat.div_le_of_le_mul (by simp only [fPll]; omega)
    simp only [BitVec.toNat_ofNat]
    omega
  split at h
  case isTrue hr =>
    obtain rfl := Option.some.inj h
    simp only [inLowRange, decide_eq_true_eq] at hr
    have hlo : 1 ≤ fOsc / hz.toNat := (Nat.le_div_iff_mul_le (by omega)).2 (by simp only [fOsc]; omega)
    have hhi : fOsc / hz.toNat ≤ 15 := Nat.div_le_of_le_mul (by simp only [fOsc]; omega)
    simp only [BitVec.toNat_ofNat]
    omega
  cases h

/-- A frame leaves `S_ACCEPT` outside the protected region (R104). -/
theorem acceptLatches_outside (c : Cfg) (i : Instr) (f : Frame) (w : CmdWord) :
    (acceptLatches c i (f.begin w)).phase.inRegion = false := by
  cases i with
  | gate0 mask off => rfl
  | gate1 mask off => rfl
  | gateid id off => rw [acceptLatches]; cases resolve c id <;> rfl
  | sethclk hz => rw [acceptLatches]; cases quantize hz <;> rfl
  | gethclk => rfl

theorem Frame.gateCommand_gateLatches {c : Cfg} (f : Frame) {g : GateReg} (mask : Byte) (off : Bool)
    (hg : g = .wake → c.hasWake = true) : (f.gateCommand g mask off).GateLatches c :=
  ⟨rfl, ⟨g, rfl, hg⟩, ⟨mask, rfl⟩, ⟨off, rfl⟩⟩

/-- `S_ACCEPT` writes every latch that the rest of the command reads before it writes it (R21, R91). -/
theorem acceptLatches_latchesOk (c : Cfg) (i : Instr) (f : Frame) (w : CmdWord) :
    (acceptLatches c i (f.begin w)).LatchesOk c := by
  cases i with
  | gate0 mask off => exact .inl (Frame.gateCommand_gateLatches _ mask off nofun)
  | gate1 mask off => exact .inl (Frame.gateCommand_gateLatches _ mask off nofun)
  | gateid id off =>
    rw [acceptLatches]
    cases hr : resolve c id with
    | none => trivial
    | some r => exact .inl (Frame.gateCommand_gateLatches _ _ off (resolve_wake hr))
  | sethclk hz =>
    rw [acceptLatches]
    cases hq : quantize hz with
    | none => trivial
    | some q => exact .inr ⟨rfl, ⟨q.div, rfl, quantize_div_range hq⟩, ⟨q.sel, rfl⟩⟩
  | gethclk => rfl

/-! ### Phases (40_protocol.md R90, R104, R106) -/

theorem MicroStep.phase_mem_next {s t : State} (h : MicroStep s t) : t.top.phase ∈ s.top.phase.next := by
  cases h <;> simp [Phase.next, *]

/-- Settles O36: the arrows by the micro-operations; at `OPEN` the kind excludes the other one; `S_ACCEPT` by the latches of
each command. -/
theorem phasesFollowTheStateMachine : Obligations.PhasesFollowTheStateMachine := by
  refine ⟨fun s t h => ⟨(micro_eq_next.1 h).phase_mem_next, fun hp hk => ?_, fun hp hk => ?_⟩, fun i s t h => ?_⟩
  · rw [micro_of_opened hp, atOpen_eq_next] at h
    rcases h with ⟨-, h⟩ | ⟨hset, -⟩
    · obtain ⟨g, v, -, -, rfl⟩ := sRead_eq_next.1 h; rfl
    · simp [hk] at hset
  · rw [micro_of_opened hp, atOpen_eq_next] at h
    rcases h with ⟨hgate, -⟩ | ⟨-, h⟩
    · simp [hk] at hgate
    · obtain ⟨d, -, -, rfl⟩ := sWrDiv_eq_next.1 h; rfl
  · obtain ⟨-, -, rfl⟩ := exec_eq_next_iff.1 h
    cases i with
    | gate0 mask off => rfl
    | gate1 mask off => rfl
    | gateid id off => simp only [State.setTop_top, acceptLatches]; cases resolve s.cfg id <;> rfl
    | sethclk hz =>
      simp only [State.setTop_top, acceptLatches, ← quantize_isSome_iff]
      cases quantize hz <;> rfl
    | gethclk => rfl

/-- Every arrow out of a phase other than `IDLE` is one step nearer to `IDLE` (R106). -/
theorem Phase.remaining_of_mem_next {p q : Phase} (hp : p ≠ .idle) (h : q ∈ p.next) :
    q.remaining + 1 = p.remaining := by
  cases p <;> simp [Phase.next] at h hp
  case opened => rcases h with rfl | rfl <;> rfl
  all_goals subst h; rfl

theorem Phase.remaining_le_six (p : Phase) : p.remaining ≤ 6 := by
  cases p <;> decide

/-- In a legal state every phase has its micro-operation: the latches it reads are written, the register it reads or writes
exists, and its write is inside the protocol (R21, R31, R62, R106). -/
theorem Inv.micro_enabled {s : State} (h : Inv s) : ∃ t, micro s = .next t := by
  have hl := h.topLatches
  have hheld : s.top.phase.unlocked = true → s.top.phase.inRegion = true → s.safe = true ∧ s.ie = false :=
    fun hu hr => ⟨h.safeIff.trans hu, h.masked hr⟩
  rcases hp : s.top.phase <;> simp only [Frame.LatchesOk, hp] at hl hheld
  case idle => exact ⟨_, micro_of_microStep (.wait hp)⟩
  case ready => exact ⟨_, micro_of_microStep (.disable hp)⟩
  case masked => exact ⟨_, micro_of_microStep (.enter hp)⟩
  case opened =>
    obtain ⟨⟨hk, ⟨g, hg, hwake⟩, -⟩ | ⟨hk, ⟨d, hd, -⟩, -⟩, -⟩ := hl
    · obtain ⟨v, hv⟩ := h.gate_some hwake
      exact ⟨_, micro_of_microStep (.read hp hk hg hv)⟩
    · exact ⟨_, micro_of_microStep (.writeDiv hp hk hd (hheld rfl rfl))⟩
  case loaded =>
    obtain ⟨⟨-, ⟨g, hg, hwake⟩, ⟨mask, hmask⟩, ⟨off, hoff⟩⟩, -, ⟨cur, hcur⟩⟩ := hl
    obtain ⟨v, hv⟩ := h.gate_some hwake
    exact ⟨_, micro_of_microStep (.write hp hg hoff hcur hmask (hheld rfl rfl) hv)⟩
  case stored1 =>
    obtain ⟨⟨-, -, ⟨b, hb⟩⟩, -⟩ := hl
    exact ⟨_, micro_of_microStep (.writeSel hp hb (hheld rfl rfl))⟩
  case stored => exact ⟨_, micro_of_microStep (.leave hp)⟩
  case closed =>
    obtain ⟨-, b, hb⟩ := hl
    exact ⟨_, micro_of_microStep (.restore hp hb)⟩
  case get0 => exact ⟨_, micro_of_microStep (.readDiv hp)⟩
  case get1 =>
    obtain ⟨-, d, hd, -⟩ := hl
    exact ⟨_, micro_of_microStep (.readSel hp hd)⟩

/-- Settles O37: a legal state has its micro-operation, which follows an arrow, and every arrow is one step nearer. -/
theorem everyCommandMakesProgress : Obligations.EveryCommandMakesProgress := by
  refine ⟨fun s hinv hp => ?_, fun _ _ t _ => t.top.phase.remaining_le_six⟩
  obtain ⟨t, ht⟩ := hinv.micro_enabled
  exact ⟨t, ht, Phase.remaining_of_mem_next hp (microStep_of_micro ht).phase_mem_next⟩

/-! ### A micro-operation keeps the state legal (40_protocol.md R103; 10_state.md R21, R31, R32) -/

theorem MicroStep.safe_eq_unlocked {s t : State} (h : MicroStep s t) (hs : s.safe = s.top.phase.unlocked) :
    t.safe = t.top.phase.unlocked := by
  cases h <;> simp [Phase.unlocked, *]

theorem MicroStep.ie_of_inRegion {s t : State} (h : MicroStep s t) (hs : s.top.phase.inRegion = true → s.ie = false)
    (ht : t.top.phase.inRegion = true) : t.ie = false := by
  cases h with
  | wait => exact hs ht
  | disable => rfl
  | restore | readDiv | readSel => simp [Phase.inRegion] at ht
  | enter hp | read hp | write hp | writeDiv hp | writeSel hp | leave hp => exact hs (by rw [hp]; rfl)

theorem MicroStep.wake_isSome {s t : State} (h : MicroStep s t) : t.regs.wake.isSome = s.regs.wake.isSome := by
  cases h with
  | write => exact RegBlock.setGate_wake_isSome ..
  | _ => rfl

theorem MicroStep.pllDiv_lt {s t : State} (h : MicroStep s t) (hs : s.regs.pllDiv.toNat < 2 ^ s.cfg.divWidth) :
    t.regs.pllDiv.toNat < 2 ^ t.cfg.divWidth := by
  cases h with
  | write => simpa using hs
  | writeDiv => exact storedDiv_lt ..
  | _ => exact hs

theorem Frame.gateLatches_of_kind {c : Cfg} {f : Frame} (h : f.GateLatches c ∨ f.SetLatches)
    (hk : f.kind = some .gate) : f.GateLatches c := by
  rcases h with hgate | ⟨hset, -⟩
  · exact hgate
  · simp [hk] at hset

theorem Frame.setLatches_of_kind {c : Cfg} {f : Frame} (h : f.GateLatches c ∨ f.SetLatches)
    (hk : f.kind = some .set) : f.SetLatches := by
  rcases h with ⟨hgate, -⟩ | hset
  · simp [hk] at hgate
  · exact hset

/-- A micro-operation leaves the latches that the rest of the sequence reads, and writes the one that its successor reads
(R21, R90). -/
theorem MicroStep.latchesOk {s t : State} (h : MicroStep s t) (hs : s.top.LatchesOk s.cfg)
    (hdiv : s.regs.pllDiv.toNat < 2 ^ s.cfg.divWidth) : t.top.LatchesOk t.cfg := by
  cases h with
  | wait => exact hs
  | disable hp =>
    simp only [Frame.LatchesOk, hp] at hs
    exact ⟨hs, s.ie, rfl⟩
  | enter hp | leave hp =>
    simp only [Frame.LatchesOk, hp] at hs
    exact hs
  | read hp hk =>
    simp only [Frame.LatchesOk, hp] at hs
    exact ⟨Frame.gateLatches_of_kind hs.1 hk, hs.2, _, rfl⟩
  | writeDiv hp hk =>
    simp only [Frame.LatchesOk, hp] at hs
    exact ⟨Frame.setLatches_of_kind hs.1 hk, hs.2⟩
  | write hp =>
    simp only [Frame.LatchesOk, hp] at hs
    exact ⟨.inl hs.1, hs.2.1⟩
  | writeSel hp =>
    simp only [Frame.LatchesOk, hp] at hs
    exact ⟨.inr hs.1, hs.2⟩
  | readDiv hp =>
    simp only [Frame.LatchesOk, hp] at hs
    exact ⟨hs, _, rfl, hdiv⟩
  | restore | readSel => trivial

theorem inv_micro {s t : State} (h : Inv s) (hm : micro s = .next t) : Inv t := by
  obtain ⟨-, hcfg, hbelow⟩ := micro_frame hm
  have hstep := microStep_of_micro hm
  exact {
    cfgWf := hcfg ▸ h.cfgWf
    safeIff := hstep.safe_eq_unlocked h.safeIff
    masked := hstep.ie_of_inRegion h.masked
    belowOutside := hbelow ▸ h.belowOutside
    depthOk := by rw [State.depth, hbelow, hcfg]; exact h.depthOk
    topLatches := hstep.latchesOk h.topLatches h.divFits
    belowLatches := by rw [hbelow, hcfg]; exact h.belowLatches
    wakeIff := by rw [hstep.wake_isSome, hcfg]; exact h.wakeIff
    divFits := hstep.pllDiv_lt h.divFits }

/-! ### The other steps keep the state legal (40_protocol.md R91; 60_exceptions.md R177, R178) -/

theorem Phase.unlocked_of_outside {p : Phase} (h : p.inRegion = false) : p.unlocked = false := by
  revert h
  cases p <;> decide

/-- With interrupts on, the top frame is outside its region (R103 (b)). -/
theorem Inv.outside_of_ie {s : State} (h : Inv s) (hie : s.ie = true) : s.top.phase.inRegion = false := by
  by_contra hr
  simp [h.masked (by simpa using hr)] at hie

/-- Outside its region the top frame has left the block locked (R103 (a)). -/
theorem Inv.safe_of_outside {s : State} (h : Inv s) (hr : s.top.phase.inRegion = false) : s.safe = false :=
  h.safeIff.trans (Phase.unlocked_of_outside hr)

theorem inv_exec {i : Instr} {s t : State} (h : Inv s) (he : exec i s = .next t) : Inv t := by
  obtain ⟨-, hs, rfl⟩ := exec_eq_next_iff.1 he
  have hout := acceptLatches_outside s.cfg i s.top (encode i)
  exact { h with
    safeIff := hs.trans (Phase.unlocked_of_outside hout).symm
    masked := fun hr => by simp [hout] at hr
    topLatches := acceptLatches_latchesOk s.cfg i s.top (encode i) }

/-- An interrupt is taken with `IE = 1`, so the frame it suspends is outside its region (R103 (c), R177). -/
theorem inv_preempt {e : Bool} {s t : State} (h : Inv s) (hpre : preempt e s = .next t) : Inv t := by
  obtain ⟨⟨hie, hdepth⟩, rfl⟩ := preempt_eq_next.1 hpre
  have hout := h.outside_of_ie hie
  exact { h with
    safeIff := h.safe_of_outside hout
    masked := nofun
    belowOutside := List.forall_mem_cons.2 ⟨hout, h.belowOutside⟩
    depthOk := hdepth
    topLatches := trivial
    belowLatches := List.forall_mem_cons.2 ⟨h.topLatches, h.belowLatches⟩ }

/-- The end of a handler resumes a frame that was suspended outside its region, in a locked block (R103, R178). -/
theorem inv_handlerReturn {s t : State} (h : Inv s) (hret : handlerReturn s = .next t) : Inv t := by
  obtain ⟨hp, f, fs, hb, rfl⟩ := handlerReturn_eq_next.1 hret
  obtain ⟨hout, houts⟩ := List.forall_mem_cons.1 (hb ▸ h.belowOutside)
  obtain ⟨hok, hoks⟩ := List.forall_mem_cons.1 (hb ▸ h.belowLatches)
  have hdepth : fs.length + 1 + 1 ≤ s.cfg.nCtx := by simpa [State.depth, hb] using h.depthOk
  exact { h with
    safeIff := (h.safe_of_outside (by rw [hp]; rfl)).trans (Phase.unlocked_of_outside hout).symm
    masked := fun hr => by simp [hout] at hr
    belowOutside := houts
    depthOk := Nat.le_of_succ_le hdepth
    topLatches := hok
    belowLatches := hoks }

/-- Settles O51, by what the step can have been; the inputs are no part of legality. -/
theorem everyStepKeepsTheStateLegal : Obligations.EveryStepKeepsTheStateLegal := by
  intro s t h hst
  rcases step_cases hst with ⟨-, hm⟩ | ⟨rest, -, hm⟩ | ⟨w, rest, i, -, -, -, he⟩ | ⟨e, rest, -, hpre⟩ |
    ⟨rest, -, hret⟩ | ⟨d, rest, -, rfl⟩
  · exact inv_micro h hm
  · exact inv_micro (inv_setInputs rest h) hm
  · exact inv_exec (inv_setInputs rest h) he
  · exact inv_preempt (inv_setInputs rest h) hpre
  · exact inv_handlerReturn (inv_setInputs rest h) hret
  · exact inv_setInputs rest (inv_resetWith d h.cfgWf)

/-! ### Steps that are no power cycle (40_protocol.md R103 (e); 60_exceptions.md R178, R180) -/

/-- Everything that a step can have been when no power cycle comes next, whatever input it used up. -/
theorem step_cases_of_noPowerNext {s t : State} (hnp : s.noPowerNext) (h : step s = .next t) :
    ∃ rest, ((rest = s.inputs ∨ s.inputs = .advance :: rest) ∧ micro (s.setInputs rest) = .next t) ∨
      (∃ i, exec i (s.setInputs rest) = .next t) ∨ (∃ e, preempt e (s.setInputs rest) = .next t) ∨
      handlerReturn (s.setInputs rest) = .next t := by
  rcases step_cases h with ⟨-, hm⟩ | ⟨rest, hi, hm⟩ | ⟨w, rest, i, -, -, -, he⟩ | ⟨e, rest, -, hpre⟩ |
    ⟨rest, -, hret⟩ | ⟨d, rest, hi, -⟩
  · exact ⟨s.inputs, .inl ⟨.inl rfl, hm⟩⟩
  · exact ⟨rest, .inl ⟨.inr hi, hm⟩⟩
  · exact ⟨rest, .inr (.inl ⟨i, he⟩)⟩
  · exact ⟨rest, .inr (.inr (.inl ⟨e, hpre⟩))⟩
  · exact ⟨rest, .inr (.inr (.inr hret))⟩
  · have hpow : (Input.powerCycle d).isPower = false := hnp _ (by simp [hi])
    cases hpow

/-- Settles O49: inside the region the top frame is not `IDLE`, so no command is accepted and no handler ends, and `IE` is 0,
so no interrupt is taken. -/
theorem noOtherStepInsideTheRegion : Obligations.NoOtherStepInsideTheRegion := by
  intro s t hinv hnp hr hst
  have hbusy : s.top.phase ≠ .idle := by
    intro hp
    simp [hp, Phase.inRegion] at hr
  obtain ⟨rest, hmicro | ⟨i, he⟩ | ⟨e, hpre⟩ | hret⟩ := step_cases_of_noPowerNext hnp hst
  · exact ⟨rest, hmicro⟩
  · exact absurd (exec_eq_next he).1 hbusy
  · obtain ⟨⟨hie, -⟩, -⟩ := preempt_eq_next.1 hpre
    simp [hinv.masked hr] at hie
  · exact absurd (handlerReturn_eq_next.1 hret).1 hbusy

/-- `threadIe` does not speak of the inputs. -/
@[simp] theorem State.threadIe_setInputs (s : State) (l : List Input) : (s.setInputs l).threadIe = s.threadIe := rfl

/-- Where the frame is outside its region, the thread context runs with `IE` itself. -/
theorem State.threadIe_of_outside {s : State} (hr : s.top.phase.inRegion = false) :
    s.threadIe = if s.below = [] then s.ie else true := by
  cases hb : s.below <;> simp [State.threadIe, hb, hr]

/-- `S_DISABLE` saves `IE`, `S_RESTORE` brings it back, and in between neither `IE` nor `SAVED` changes (R92, R99). -/
theorem MicroStep.threadIe_eq {s t : State} (h : MicroStep s t) : t.threadIe = s.threadIe := by
  cases h <;> simp [State.threadIe, Phase.inRegion, *]

theorem exec_threadIe {i : Instr} {s t : State} (he : exec i s = .next t) : t.threadIe = s.threadIe := by
  obtain ⟨hp, -, rfl⟩ := exec_eq_next_iff.1 he
  rw [State.threadIe_of_outside (s := s) (by rw [hp]; rfl),
    State.threadIe_of_outside (acceptLatches_outside s.cfg i s.top (encode i))]
  rfl

/-- An interrupt is taken with `IE = 1`, which the end of the handler gives back (R177, R178). -/
theorem preempt_threadIe {e : Bool} {s t : State} (h : Inv s) (hpre : preempt e s = .next t) :
    t.threadIe = s.threadIe := by
  obtain ⟨⟨hie, -⟩, rfl⟩ := preempt_eq_next.1 hpre
  rw [State.threadIe_of_outside (h.outside_of_ie hie), hie, ite_self]
  rfl

theorem handlerReturn_threadIe {s t : State} (h : Inv s) (hret : handlerReturn s = .next t) :
    t.threadIe = s.threadIe := by
  obtain ⟨-, f, fs, hb, rfl⟩ := handlerReturn_eq_next.1 hret
  have hout : f.phase.inRegion = false := h.belowOutside f (by simp [hb])
  rw [State.threadIe_of_outside hout]
  simp [State.threadIe, hb]

/-- Settles O57, by what the step can have been. -/
theorem threadInterruptStateIsKept : Obligations.ThreadInterruptStateIsKept := by
  intro s t hinv hnp hst
  obtain ⟨rest, ⟨-, hm⟩ | ⟨i, he⟩ | ⟨e, hpre⟩ | hret⟩ := step_cases_of_noPowerNext hnp hst
  · simpa using (microStep_of_micro hm).threadIe_eq
  · simpa using exec_threadIe he
  · simpa using preempt_threadIe (inv_setInputs rest hinv) hpre
  · simpa using handlerReturn_threadIe (inv_setInputs rest hinv) hret

end Sys2Proof.Machine

/-! SUPPORT. The ways through `Resolve`, the configuration check as facts about every identity, and the proofs of the
statements of 41_resolver.md. -/

namespace Sys2Proof

/-! ### The ways through `Resolve` (41_resolver.md R118) -/

section
variable {c : Cfg} {id : Identity}

theorem resolve_of_end_le (he : c.endOfIdentities ≤ id.toNat) : resolve c id = none := by
  rw [resolve, if_pos he]

theorem resolve_of_t0 (hlt : id.toNat < c.endOfIdentities) (h0 : c.t0.lookup id ≠ 0) :
    resolve c id = some ⟨.cg0, c.t0.lookup id⟩ := by
  rw [resolve, if_neg (Nat.not_le.2 hlt), if_pos h0]

theorem resolve_of_t1 (hlt : id.toNat < c.endOfIdentities) (h0 : c.t0.lookup id = 0) (h1 : c.t1.lookup id ≠ 0) :
    resolve c id = some ⟨.cg1, c.t1.lookup id⟩ := by
  rw [resolve, if_neg (Nat.not_le.2 hlt), if_neg (not_not.2 h0), if_pos h1]

theorem resolve_of_tw (hlt : id.toNat < c.endOfIdentities) (h0 : c.t0.lookup id = 0) (h1 : c.t1.lookup id = 0)
    (hwake : c.hasWake = true) (hw : c.tw.lookup id ≠ 0) : resolve c id = some ⟨.wake, c.tw.lookup id⟩ := by
  have hcond : (c.hasWake && c.tw.lookup id != 0) = true := by simpa [hwake] using hw
  rw [resolve, if_neg (Nat.not_le.2 hlt), if_neg (not_not.2 h0), if_neg (not_not.2 h1), if_pos hcond]

theorem resolve_of_unbound (h0 : c.t0.lookup id = 0) (h1 : c.t1.lookup id = 0)
    (hw : c.hasWake = true → c.tw.lookup id = 0) : resolve c id = none := by
  simpa [resolve, h0, h1] using fun _ => hw

end

/-! ### What the configuration check gives for every identity (41_resolver.md R116) -/

/-- No table binds the identity exactly when it has no owner. -/
theorem Cfg.ownersOf_eq_zero_iff {c : Cfg} {id : Identity} :
    c.ownersOf id = 0 ↔ c.t0.lookup id = 0 ∧ c.t1.lookup id = 0 ∧ c.tw.lookup id = 0 := by
  simp only [Cfg.ownersOf]
  split_ifs <;> simp_all

/-- At most one owner: the three tables exclude one another. -/
theorem Cfg.ownersOf_le_one_iff {c : Cfg} {id : Identity} :
    c.ownersOf id ≤ 1 ↔ ¬ (c.t0.lookup id ≠ 0 ∧ c.t1.lookup id ≠ 0) ∧ ¬ (c.t0.lookup id ≠ 0 ∧ c.tw.lookup id ≠ 0) ∧
      ¬ (c.t1.lookup id ≠ 0 ∧ c.tw.lookup id ≠ 0) := by
  simp only [Cfg.ownersOf]
  split_ifs <;> simp_all

/-- R116 (c) for every two identities: the check speaks of the entries, and an identity with a value has one. -/
theorem Table.lookup_ne_of_oneBitEach {t : Table} (h : t.oneBitEach = true) {i j : Identity} (hij : i ≠ j)
    (hi : t.lookup i ≠ 0) : t.lookup i ≠ t.lookup j := by
  intro heq
  obtain ⟨e, he, rfl⟩ := Table.exists_entry hi
  obtain ⟨f, hf, rfl⟩ := Table.exists_entry (heq ▸ hi)
  simp only [Table.oneBitEach, List.all_eq_true, decide_eq_true_eq] at h
  obtain hid | hzero | hne := h e he f hf
  · exact hij hid
  · exact hi hzero
  · exact hne heq

section
variable {c : Cfg} (h : c.wf = true)
include h

/-- R116 (a): no identity has two owners, listed or not. -/
theorem Cfg.ownersOf_le_one (id : Identity) : c.ownersOf id ≤ 1 := by
  obtain ⟨-, -, hcol, -⟩ := Cfg.wf_iff.1 h
  by_cases hz : c.ownersOf id = 0
  · omega
  · simp only [Cfg.noCollision, List.all_eq_true, decide_eq_true_eq] at hcol
    exact hcol id (Cfg.mem_boundIds hz)

/-- R116 (d): an identity with an owner is below the bound. -/
theorem Cfg.lt_end_of_ownersOf_ne_zero {id : Identity} (hz : c.ownersOf id ≠ 0) : id.toNat < c.endOfIdentities := by
  obtain ⟨-, -, -, -, hend, -⟩ := Cfg.wf_iff.1 h
  simp only [Cfg.boundBelowEnd, List.all_eq_true, decide_eq_true_eq] at hend
  exact (hend id (Cfg.mem_boundIds hz)).resolve_right hz

/-- R116 (e): an identity of the wake table needs the wake group. -/
theorem Cfg.hasWake_of_tw {id : Identity} (hw : c.tw.lookup id ≠ 0) : c.hasWake = true := by
  obtain ⟨-, -, -, -, -, hok⟩ := Cfg.wf_iff.1 h
  obtain ⟨e, he, rfl⟩ := Table.exists_entry hw
  simp only [Cfg.wakeTableOk, Bool.or_eq_true, List.all_eq_true, decide_eq_true_eq] at hok
  exact hok.resolve_right fun hall => hw (hall e he)

end

end Sys2Proof

namespace Sys2Proof.Machine

/-! ### The statements of 41_resolver.md -/

/-- Settles O19, one way through the algorithm after the other. -/
theorem resolveSearchesTheTablesInOrder : Obligations.ResolveSearchesTheTablesInOrder :=
  fun _ _ => ⟨resolve_of_end_le, fun hlt =>
    ⟨resolve_of_t0 hlt, resolve_of_t1 hlt, resolve_of_tw hlt, resolve_of_unbound⟩⟩

/-- Settles O20: on a well-formed configuration an identity with a value is below the bound, and the tables before its own
have none for it. -/
theorem resolvedBindingIsLegal : Obligations.ResolvedBindingIsLegal := by
  intro c id
  refine ⟨fun r hr => ⟨resolve_bit_ne_zero hr, resolve_wake hr⟩, fun hwf => ?_⟩
  obtain ⟨h01, h0w, h1w⟩ := Cfg.ownersOf_le_one_iff.1 (Cfg.ownersOf_le_one hwf id)
  have hlt (hb : ¬ (c.t0.lookup id = 0 ∧ c.t1.lookup id = 0 ∧ c.tw.lookup id = 0)) : id.toNat < c.endOfIdentities :=
    Cfg.lt_end_of_ownersOf_ne_zero hwf (mt Cfg.ownersOf_eq_zero_iff.1 hb)
  refine ⟨fun h0 => ?_, fun h1 => ?_, fun hw => ?_⟩
  · exact resolve_of_t0 (hlt fun hz => h0 hz.1) h0
  · have h0 : c.t0.lookup id = 0 := by_contra fun h0 => h01 ⟨h0, h1⟩
    exact resolve_of_t1 (hlt fun hz => h1 hz.2.1) h0 h1
  · have h0 : c.t0.lookup id = 0 := by_contra fun h0 => h0w ⟨h0, hw⟩
    have h1 : c.t1.lookup id = 0 := by_contra fun h1 => h1w ⟨h1, hw⟩
    exact resolve_of_tw (hlt fun hz => hw hz.2.2) h0 h1 (Cfg.hasWake_of_tw hwf hw) hw

/-- Settles O21, by the four conditions of R116 one after the other. -/
theorem wellFormedConfigurationBindsOneBitPerIdentity : Obligations.WellFormedConfigurationBindsOneBitPerIdentity := by
  intro c hwf
  obtain ⟨-, -, -, ⟨h0, h1, hw⟩, -⟩ := Cfg.wf_iff.1 hwf
  refine ⟨fun id => Cfg.ownersOf_le_one_iff.1 (Cfg.ownersOf_le_one hwf id), ?_, fun id hend => ?_, fun hno id => ?_⟩
  · rintro t (rfl | rfl | rfl) i j hij hi
    · exact Table.lookup_ne_of_oneBitEach h0 hij hi
    · exact Table.lookup_ne_of_oneBitEach h1 hij hi
    · exact Table.lookup_ne_of_oneBitEach hw hij hi
  · have hz : c.ownersOf id = 0 := by_contra fun hz => (Cfg.lt_end_of_ownersOf_ne_zero hwf hz).not_ge hend
    exact Cfg.ownersOf_eq_zero_iff.1 hz
  · by_contra hb
    exact absurd (Cfg.hasWake_of_tw hwf hb) (by simp [hno])

/-- Settles O22: seven closed bytes. -/
theorem maskOfIsTheOneHotByte : Obligations.MaskOfIsTheOneHotByte := by
  unfold Obligations.MaskOfIsTheOneHotByte
  decide

end Sys2Proof.Machine

/-! SUPPORT. What a whole gate command does, what the `GATE` sequence does from `MASKED` whatever the inputs, and the proofs
of the statements of 42_gate.md. -/

namespace Sys2Proof.Machine

/-! ### A command that is accepted into the `GATE` sequence (42_gate.md R131 to R133) -/

section
variable {i : Instr} {s : State} {f : Frame} {g : GateReg} {mask cur : Byte} {off : Bool}
  (he : exec i s = .next (s.setTop (f.gateCommand g mask off))) (hs : s.safe = false) (hc : s.regs.gate g = some cur)
include he hs hc

/-- The whole command: the read-modify-write of its target, `IE` and `SAFE` as before (R90, R130). -/
theorem runCommand_of_exec_gateCommand :
    runCommand i s = .next { s with
      regs := s.regs.setGate g (gateValue off cur mask)
      top := { f.gateCommand g mask off with saved := some s.ie, tmp := some cur, phase := .idle } } := by
  have hseq := microRun_gate (s := s.setTop (f.gateCommand g mask off)) rfl rfl rfl rfl hc rfl
  rw [runCommand, he, andThen_next, hseq, State.setTop, ← hs]

/-- The flags on the way of the command. -/
theorem regionTimeline_of_exec_gateCommand : ∀ t, exec i s = .next t → t.RegionTimeline := by
  intro t ht
  obtain rfl := next_inj.1 (he.symm.trans ht)
  exact regionTimeline_gate rfl rfl rfl rfl hc rfl hs

end

/-- Settles O12: GATE0 is accepted into the `GATE` sequence on `CG0`. -/
theorem gate0ReadsModifiesAndWritesCg0 : Obligations.Gate0ReadsModifiesAndWritesCg0 := by
  intro mask off s hp hs
  have he := exec_gate0_of_idle mask off hp hs
  exact ⟨rfl, he, runCommand_of_exec_gateCommand he hs rfl, regionTimeline_of_exec_gateCommand he hs rfl⟩

/-- Settles O13: GATE1 is accepted into the `GATE` sequence on `CG1`. -/
theorem gate1ReadsModifiesAndWritesCg1 : Obligations.Gate1ReadsModifiesAndWritesCg1 := by
  intro mask off s hp hs
  have he := exec_gate1_of_idle mask off hp hs
  exact ⟨rfl, he, runCommand_of_exec_gateCommand he hs rfl, regionTimeline_of_exec_gateCommand he hs rfl⟩

/-- Settles O14: with a binding, GATEID is accepted into the `GATE` sequence on the resolved register. -/
theorem gateIdWithABindingWritesTheResolvedRegister : Obligations.GateIdWithABindingWritesTheResolvedRegister := by
  intro id off s g b cur hp hs hr hc
  have he := exec_gateid_of_idle id off hp hs
  simp only [hr] at he
  exact ⟨rfl, he, runCommand_of_exec_gateCommand he hs hc, regionTimeline_of_exec_gateCommand he hs hc⟩

/-! ### A command that is complete when it is accepted (42_gate.md R133; 60_exceptions.md R171) -/

/-- An `IDLE` frame accesses no register however many micro-operations are asked for (R56). -/
theorem accessesOf_of_idle {s : State} (h : s.top.phase = .idle) (n : Nat) : accessesOf n s = [] := by
  induction n with
  | zero => rfl
  | succ n ih => simp [accessesOf, accessOf, h, micro_of_idle h, ih]

/-- A command that `S_ACCEPT` leaves at `IDLE` is complete, and no register is accessed. -/
theorem runCommand_of_exec_idle {i : Instr} {s t : State} (he : exec i s = .next t) (hp : t.top.phase = .idle) :
    runCommand i s = .next t ∧ accessesOf 6 t = [] := by
  rw [runCommand, he, andThen_next]
  exact ⟨microRun_of_idle hp 6, accessesOf_of_idle hp 6⟩

/-- Settles O15: without a binding, `S_ACCEPT` leaves the frame at `IDLE`. -/
theorem gateIdWithoutABindingOnlyAnswersZero : Obligations.GateIdWithoutABindingOnlyAnswersZero := by
  intro id off s hp hs hr
  have he := exec_gateid_of_idle id off hp hs
  simp only [hr] at he
  refine ⟨he, fun t ht => runCommand_of_exec_idle ht ?_⟩
  obtain rfl := next_inj.1 (he.symm.trans ht)
  rfl

/-! ### The bits that a gate command writes (42_gate.md R130, R135, R136) -/

/-- The read-modify-write bit by bit: `off` inside the mask, the old bit outside it (R136). -/
theorem gateValue_bit (off : Bool) (cur mask : Byte) {k : Nat} (hk : k < 8) :
    (gateValue off cur mask).getLsbD k = if mask.getLsbD k then off else cur.getLsbD k := by
  have hnot : (~~~mask).getLsbD k = !mask.getLsbD k := by rw [BitVec.getLsbD_not, decide_eq_true hk, Bool.true_and]
  cases off with
  | true => rw [gateValue, if_pos rfl, BitVec.getLsbD_or]; cases mask.getLsbD k <;> simp
  | false => rw [gateValue, if_neg nofun, BitVec.getLsbD_and, hnot]; cases mask.getLsbD k <;> simp

/-- A second gate command with the same mask leaves nothing of the first (R135). -/
theorem gateValue_gateValue (on off : Bool) (cur mask : Byte) :
    gateValue off (gateValue on cur mask) mask = gateValue off cur mask := by
  refine BitVec.eq_of_getLsbD_eq fun k hk => ?_
  simp only [gateValue_bit _ _ _ hk]
  split <;> rfl

/-- Settles O16, bit by bit of the byte written. -/
theorem gateCommandsKeepBitsOutsideTheMask : Obligations.GateCommandsKeepBitsOutsideTheMask := by
  intro mask off s k hp hs hk
  exact ⟨⟨_, runCommand_of_exec_gateCommand (exec_gate0_of_idle mask off hp hs) hs rfl, gateValue_bit off _ mask hk⟩,
    ⟨_, runCommand_of_exec_gateCommand (exec_gate1_of_idle mask off hp hs) hs rfl, gateValue_bit off _ mask hk⟩⟩

/-! ### One gate command after another (42_gate.md R135) -/

/-- The command runs the `GATE` sequence on `g` with `mask` and `off`, whatever the frame (R131 to R133). -/
def RunsGate (c : Cfg) (i : Instr) (g : GateReg) (mask : Byte) (off : Bool) : Prop :=
  ∀ f, ∃ f', acceptLatches c i f = Frame.gateCommand f' g mask off

theorem runsGate_gate0 (c : Cfg) (mask : Byte) (off : Bool) : RunsGate c (.gate0 mask off) .cg0 mask off :=
  fun f => ⟨f, rfl⟩

theorem runsGate_gate1 (c : Cfg) (mask : Byte) (off : Bool) : RunsGate c (.gate1 mask off) .cg1 mask off :=
  fun f => ⟨f, rfl⟩

theorem runsGate_gateid {c : Cfg} {id : Identity} {g : GateReg} {b : BitPos} (off : Bool)
    (hr : resolve c id = some ⟨g, b⟩) : RunsGate c (.gateid id off) g (maskOf b) off := by
  intro f
  rw [acceptLatches, hr]
  exact ⟨_, rfl⟩

/-- A command that runs the `GATE` sequence is complete with the block locked, and of the registers it has written its target
alone. -/
theorem RunsGate.runCommand_eq {s : State} {i : Instr} {g : GateReg} {mask cur : Byte} {off : Bool}
    (h : RunsGate s.cfg i g mask off) (hp : s.top.phase = .idle) (hs : s.safe = false)
    (hc : s.regs.gate g = some cur) :
    ∃ t, runCommand i s = .next t ∧ t.cfg = s.cfg ∧ t.top.phase = .idle ∧ t.safe = false ∧
      t.regs = s.regs.setGate g (gateValue off cur mask) := by
  obtain ⟨f, hf⟩ := h (s.top.begin (encode i))
  have he : exec i s = .next (s.setTop (f.gateCommand g mask off)) := exec_eq_next_iff.2 ⟨hp, hs, by rw [hf]⟩
  exact ⟨_, runCommand_of_exec_gateCommand he hs hc, rfl, rfl, hs, rfl⟩

/-- Settles O17: each of the three commands writes the byte that its last `off` and the first byte decide. -/
theorem gatingIsIdempotentAndClearsExactly : Obligations.GatingIsIdempotentAndClearsExactly := by
  intro s on off g mask cur hcmd hp hs hc
  have hgate : RunsGate s.cfg on g mask true ∧ RunsGate s.cfg off g mask false := by
    rcases hcmd with ⟨m, rfl, rfl, rfl, rfl⟩ | ⟨m, rfl, rfl, rfl, rfl⟩ | ⟨id, b, rfl, rfl, hr, rfl⟩
    · exact ⟨runsGate_gate0 _ mask true, runsGate_gate0 _ mask false⟩
    · exact ⟨runsGate_gate1 _ mask true, runsGate_gate1 _ mask false⟩
    · exact ⟨runsGate_gateid true hr, runsGate_gateid false hr⟩
  obtain ⟨hon, hoff⟩ := hgate
  have hset (v : Byte) : (s.regs.setGate g v).gate g = some v := RegBlock.gate_setGate_same v hc
  obtain ⟨t, ht, htcfg, htp, hts, htregs⟩ := hon.runCommand_eq hp hs hc
  have htg : t.regs.gate g = some (gateValue true cur mask) := by rw [htregs, hset]
  obtain ⟨u, hu, hucfg, hup, hus, huregs⟩ := RunsGate.runCommand_eq (htcfg ▸ hon) htp hts htg
  rw [htregs, RegBlock.setGate_setGate, gateValue_gateValue, ← htregs] at huregs
  obtain ⟨v, hv, -, -, -, hvregs⟩ := RunsGate.runCommand_eq (hucfg ▸ htcfg ▸ hoff) hup hus (huregs ▸ htg)
  rw [huregs, htregs, RegBlock.setGate_setGate, gateValue_gateValue] at hvregs
  exact ⟨t, u, v, ht, hu, hv, htg, huregs, by rw [hvregs, hset]; rfl⟩

/-! ### The protected region whatever the inputs (20_memory.md R60; 40_protocol.md R103; 42_gate.md R134) -/

/-- A micro-operation does not look at the inputs. -/
theorem MicroStep.setInputs {s t : State} (h : MicroStep s t) (l : List Input) :
    MicroStep (s.setInputs l) (t.setInputs l) := by
  cases h with
  | wait hp => exact .wait hp
  | disable hp => exact .disable hp
  | enter hp => exact .enter hp
  | read hp hk hg hv => exact .read hp hk hg hv
  | write hp hg hoff hcur hmask hheld hv => exact .write hp hg hoff hcur hmask hheld hv
  | writeDiv hp hk hd hheld => exact .writeDiv hp hk hd hheld
  | writeSel hp hb hheld => exact .writeSel hp hb hheld
  | leave hp => exact .leave hp
  | restore hp hb => exact .restore hp hb
  | readDiv hp => exact .readDiv hp
  | readSel hp hd => exact .readSel hp hd

/-- An arrow out of a phase of the region stays in the region until the command is complete (R90). -/
theorem Phase.inRegion_of_mem_next {p q : Phase} (hp : p.inRegion = true) (h : q ∈ p.next) (hq : q.remaining ≠ 0) :
    q.inRegion = true := by
  revert hp h hq
  cases p <;> cases q <;> decide

theorem State.noPowerNext_of_noPower {s : State} (h : s.noPower) : s.noPowerNext :=
  fun i hi => h i (List.mem_of_mem_head? hi)

theorem step_noPower {s t : State} (h : s.noPower) (hst : step s = .next t) : t.noPower :=
  fun i hi => h i (step_inputs hst i hi)

/-- Inside the protected region, as many steps as the command still needs are its own micro-operations, whatever inputs they
used up (R60, R103 (e)). -/
theorem microRun_of_run_inRegion (n : Nat) {s t : State} (l : List Input) (hinv : Inv s) (hnp : s.noPower)
    (hr : n ≠ 0 → s.top.phase.inRegion = true) (hn : n ≤ s.top.phase.remaining) (h : run n s = .next t) :
    microRun n (s.setInputs l) = .next (t.setInputs l) := by
  induction n generalizing s with
  | zero => rw [next_inj.1 h, microRun_zero]
  | succ n ih =>
    have hin : s.top.phase.inRegion = true := hr n.succ_ne_zero
    obtain ⟨u, hu, hrun⟩ := andThen_eq_next.1 (run_succ n s ▸ h)
    obtain ⟨rest, -, hm⟩ := noOtherStepInsideTheRegion s u hinv (State.noPowerNext_of_noPower hnp) hin hu
    have hstep : MicroStep (s.setInputs l) (u.setInputs l) := (microStep_of_micro hm).setInputs l
    have harrow : u.top.phase ∈ s.top.phase.next := hstep.phase_mem_next
    have hbusy : s.top.phase ≠ .idle := fun hp => by simp [hp, Phase.inRegion] at hin
    have hrem : u.top.phase.remaining + 1 = s.top.phase.remaining := Phase.remaining_of_mem_next hbusy harrow
    have hu_in : n ≠ 0 → u.top.phase.inRegion = true := fun _ => Phase.inRegion_of_mem_next hin harrow (by omega)
    rw [microRun_succ, micro_of_microStep hstep, andThen_next]
    exact ih (everyStepKeepsTheStateLegal s u hinv hu) (step_noPower hnp hu) hu_in (by omega) hrun

/-- The `GATE` sequence from `MASKED`: the state is where `S_DISABLE` led from `READY` with the saved `IE` (R90, R92). -/
theorem microRun_gate_of_masked {s : State} {g : GateReg} {mask cur : Byte} {off saved : Bool}
    (hie : s.ie = false) (hp : s.top.phase = .masked) (hk : s.top.kind = some .gate) (hg : s.top.tgt = some g)
    (hm : s.top.m = some mask) (ho : s.top.off = some off) (hsaved : s.top.saved = some saved)
    (hc : s.regs.gate g = some cur) :
    microRun 5 s = .next { s with
      ie := saved
      safe := false
      regs := s.regs.setGate g (gateValue off cur mask)
      top := { s.top with tmp := some cur, phase := .idle } } := by
  have hdisable : sDisable ((s.setPhase .ready).setIe saved) = .next s := by
    obtain ⟨cfg, regs, ie, safe, top, below, inputs⟩ := s
    obtain ⟨⟩ := top
    cases hie; cases hp; cases hsaved
    rfl
  have hseq := microRun_gate (s := (s.setPhase .ready).setIe saved) hk hg hm ho hc rfl
  rw [microRun_succ, micro_of_ready rfl, hdisable, andThen_next] at hseq
  rw [hseq]
  simp only [State.setPhase, State.setTop, State.setIe, hsaved]

/-- Settles O48: the five steps are the command's own micro-operations, and these are the rest of the `GATE` sequence. -/
theorem gateRegionIsAtomicUnderEveryInput : Obligations.GateRegionIsAtomicUnderEveryInput := by
  intro s t g mask cur off saved hinv hnp hp hk hg hm ho hsaved hc hrun
  have hin : s.top.phase.inRegion = true := by rw [hp]; rfl
  have hrem : 5 ≤ s.top.phase.remaining := by rw [hp]; exact le_rfl
  have hown := microRun_of_run_inRegion 5 s.inputs hinv hnp (fun _ => hin) hrem hrun
  rw [State.setInputs_self, microRun_gate_of_masked (hinv.masked hin) hp hk hg hm ho hsaved hc] at hown
  have ht := next_inj.1 hown
  exact ⟨congrArg State.top ht, (congrArg State.below ht :), congrArg State.regs ht, congrArg State.ie ht,
    congrArg State.safe ht⟩

end Sys2Proof.Machine

/-! SUPPORT. What whole frequency commands do, how many steps of the machine they take, and the proofs of the statements of
43_hclk.md. -/

namespace Sys2Proof.Machine

/-! ### The request ranges and their dividers (43_hclk.md R151, R157, R159, R160) -/

/-- The table of R151: a request is in a range, which has the reference `ref` and the source select `sel`. -/
def InRange (hz ref : Nat) (sel : Bool) : Prop :=
  (30000000 ≤ hz ∧ hz ≤ 120000000 ∧ ref = 480000000 ∧ sel = true) ∨
    (2000000 ≤ hz ∧ hz < 30000000 ∧ ref = 30000000 ∧ sel = false)

/-- The reference belongs to the select. -/
theorem InRange.ref_eq {hz ref : Nat} {sel : Bool} (h : InRange hz ref sel) :
    ref = if sel then 480000000 else 30000000 := by
  rcases h with ⟨-, -, rfl, rfl⟩ | ⟨-, -, rfl, rfl⟩ <;> rfl

theorem InRange.le_hz {hz ref : Nat} {sel : Bool} (h : InRange hz ref sel) : 2000000 ≤ hz := by
  rcases h with ⟨hlo, -⟩ | ⟨hlo, -⟩ <;> omega

/-- The quotient is 4 to 16 in the high range and 1 to 15 in the low range (R159, R160). -/
theorem InRange.quotient {hz ref : Nat} {sel : Bool} (h : InRange hz ref sel) :
    (sel = true ∧ 4 ≤ ref / hz ∧ ref / hz ≤ 16) ∨ (sel = false ∧ 1 ≤ ref / hz ∧ ref / hz ≤ 15) := by
  have hpos : 0 < hz := Nat.lt_of_lt_of_le (by decide) h.le_hz
  rcases h with ⟨hlo, hhi, rfl, rfl⟩ | ⟨hlo, hhi, rfl, rfl⟩
  · exact .inl ⟨rfl, (Nat.le_div_iff_mul_le hpos).2 (by omega), Nat.div_le_of_le_mul (by omega)⟩
  · exact .inr ⟨rfl, (Nat.le_div_iff_mul_le hpos).2 (by omega), Nat.div_le_of_le_mul (by omega)⟩

/-- The five bits of `DIV` hold the quotient exactly (R159). -/
theorem InRange.toNat_div {hz ref : Nat} {sel : Bool} (h : InRange hz ref sel) :
    (BitVec.ofNat 5 (ref / hz)).toNat = ref / hz := by
  have hq := h.quotient
  rw [BitVec.toNat_ofNat, Nat.mod_eq_of_lt (by omega)]

/-- SETHCLK accepts exactly the requests in range, with the floor of the quotient as divider (R151, R153). -/
theorem quantize_eq_some_iff {hz : BitVec 32} {q : Divided} :
    quantize hz = some q ↔ ∃ ref, InRange hz.toNat ref q.sel ∧ q.div = BitVec.ofNat 5 (ref / hz.toNat) := by
  constructor
  · intro h
    simp only [quantize, inHighRange, inLowRange, decide_eq_true_eq] at h
    split at h
    case isTrue hr =>
      obtain rfl := Option.some.inj h
      exact ⟨480000000, .inl ⟨hr.1, hr.2, rfl, rfl⟩, rfl⟩
    split at h
    case isTrue hr =>
      obtain rfl := Option.some.inj h
      exact ⟨30000000, .inr ⟨hr.1, hr.2, rfl, rfl⟩, rfl⟩
    cases h
  · obtain ⟨d, sel⟩ := q
    rintro ⟨ref, ⟨hlo, hhi, rfl, rfl⟩ | ⟨hlo, hhi, rfl, rfl⟩, rfl⟩
    · have hhigh : inHighRange hz.toNat = true := decide_eq_true ⟨hlo, hhi⟩
      rw [quantize, if_pos hhigh, fPll]
    · have hhigh : ¬ inHighRange hz.toNat = true := by simp only [inHighRange, decide_eq_true_eq]; omega
      have hlow : inLowRange hz.toNat = true := decide_eq_true ⟨hlo, hhi⟩
      rw [quantize, if_neg hhigh, if_pos hlow, fOsc]

theorem InRange.quantize_eq {hz : BitVec 32} {ref : Nat} {sel : Bool} (h : InRange hz.toNat ref sel) :
    quantize hz = some ⟨BitVec.ofNat 5 (ref / hz.toNat), sel⟩ :=
  quantize_eq_some_iff.2 ⟨ref, h, rfl⟩

/-- SETHCLK rejects a request below 2 MHz or above 120 MHz (R151). -/
theorem quantize_eq_none {hz : BitVec 32} (h : hz.toNat < 2000000 ∨ 120000000 < hz.toNat) : quantize hz = none := by
  rw [← Option.not_isSome_iff_eq_none, quantize_isSome_iff]
  omega

/-- Settles O27, by the range that accepted the request. -/
theorem computedDividerIsBetweenOneAndSixteen : Obligations.ComputedDividerIsBetweenOneAndSixteen := by
  intro hz q h
  obtain ⟨ref, hr, hdiv⟩ := quantize_eq_some_iff.1 h
  have hd : q.div.toNat = ref / hz.toNat := by rw [hdiv, hr.toNat_div]
  have hq := hr.quotient
  refine ⟨hr.le_hz, by rw [hd, hr.ref_eq], fun hsel => ?_, fun hsel => ?_⟩
  · simpa [hsel, hd] using hq
  · simpa [hsel, hd] using hq

/-! ### The whole commands (43_hclk.md R151, R154, R155) -/

section
variable {s : State} (hp : s.top.phase = .idle) (hs : s.safe = false)
include hp hs

/-- `S_ACCEPT` of an accepted SETHCLK. -/
theorem exec_sethclk_of_quantize {hz : BitVec 32} {q : Divided} (hq : quantize hz = some q) :
    exec (.sethclk hz) s = .next { s with top :=
      { Frame.fresh with
        cmd := some (encode (.sethclk hz)), kind := some .set, div := some q.div, sel := some q.sel, res := some 0,
        phase := .ready } } := by
  rw [exec_sethclk_of_idle hz hp hs, hq]
  rfl

/-- An accepted SETHCLK writes the divider and the select, `IE` and `SAFE` as before (R90, R151). -/
theorem runCommand_sethclk {hz : BitVec 32} {q : Divided} (hq : quantize hz = some q) :
    runCommand (.sethclk hz) s = .next { s with
      regs := { s.regs with pllDiv := storedDiv s.cfg q.div, selPll := q.sel }
      top := { Frame.fresh with
        cmd := some (encode (.sethclk hz)), kind := some .set, div := some q.div, sel := some q.sel,
        saved := some s.ie, res := some 0, phase := .idle } } := by
  rw [runCommand, exec_sethclk_of_quantize hp hs hq, andThen_next, microRun_set rfl rfl rfl rfl, ← hs]

/-- The flags on the way of an accepted SETHCLK. -/
theorem regionTimeline_sethclk {hz : BitVec 32} {q : Divided} (hq : quantize hz = some q) :
    ∀ t, exec (.sethclk hz) s = .next t → t.RegionTimeline := by
  intro t ht
  obtain rfl := next_inj.1 ((exec_sethclk_of_quantize hp hs hq).symm.trans ht)
  exact regionTimeline_set rfl rfl rfl rfl hs

/-- GETHCLK answers `Hclk()` and changes no register and no flag (R37, R155). -/
theorem runCommand_gethclk :
    runCommand .gethclk s = .next { s with top :=
      { Frame.fresh with
        cmd := some (encode .gethclk), kind := some .get, tdiv := some s.regs.pllDiv, res := some (hclk s),
        phase := .idle } } := by
  rw [runCommand, exec_gethclk_of_idle hp hs, andThen_next, microRun_get rfl]
  rfl

end

/-- Settles O23: the request has a divider, which five bits hold, and SETHCLK with a divider runs the `SET` sequence. -/
theorem setHclkInRangeWritesDividerAndSelect : Obligations.SetHclkInRangeWritesDividerAndSelect := by
  intro hz s ref sel hp hs hr
  have hrange : InRange hz.toNat ref sel := hr
  have hq := hrange.quantize_eq
  have hrun := runCommand_sethclk hp hs hq
  rw [storedDiv, hrange.toNat_div] at hrun
  exact ⟨rfl, exec_sethclk_of_quantize hp hs hq, hrun, regionTimeline_sethclk hp hs hq⟩

/-- The failure code is a negative 32-bit number, so `RES` shows it as it is (R6, R77). -/
theorem toInt_failWord {c : Cfg} (h : c.wf = true) : (failWord c).toInt = c.failCode ∧ c.failCode < 0 := by
  have hr := (Cfg.wf_iff.1 h).1
  simp only [Cfg.rangesOk, Bool.and_eq_true, decide_eq_true_eq] at hr
  obtain ⟨⟨-, hlo, hhi⟩, -⟩ := hr
  exact ⟨BitVec.toInt_ofInt_eq_self (by decide) hlo (by omega), by omega⟩

/-- Settles O24: a request without a divider leaves the frame at `IDLE`, and the registers that the next GETHCLK reads are
the old ones. -/
theorem setHclkOutOfRangeChangesNothing : Obligations.SetHclkOutOfRangeChangesNothing := by
  intro hz s hp hs hout
  have he := exec_sethclk_of_idle hz hp hs
  simp only [quantize_eq_none hout] at he
  refine ⟨he, toInt_failWord, fun t ht => ?_⟩
  obtain rfl := next_inj.1 (he.symm.trans ht)
  obtain ⟨hrun, hacc⟩ := runCommand_of_exec_idle ht rfl
  exact ⟨hrun, hacc, _, runCommand_gethclk rfl hs, rfl⟩

/-- Settles O25: GETHCLK answers `Hclk()`, which is the formula of R155. -/
theorem getHclkAnswersTheSelectedFrequency : Obligations.GetHclkAnswersTheSelectedFrequency := by
  intro s hp hs
  exact ⟨rfl, exec_gethclk_of_idle hp hs, runCommand_gethclk hp hs⟩

/-- What a zero divider reads as, without a division (R156). -/
theorem hclkOf_zero (sel : Bool) : hclkOf 0 sel = if sel then 30000000 else 2000000 := by
  cases sel <;> rfl

/-- Settles O26: GETHCLK answers `Hclk()`, which needs no division at a zero divider. -/
theorem zeroDividerReadsAsTheLowestFrequency : Obligations.ZeroDividerReadsAsTheLowestFrequency := by
  intro s hp hs hz
  refine ⟨_, runCommand_gethclk hp hs, congrArg some ?_⟩
  rw [hclk, hz, hclkOf_zero]

/-! ### A presented command as steps of the machine (10_state.md R25; 40_protocol.md R106) -/

theorem run_add (m n : Nat) (s : State) : run (m + n) s = andThen (run m s) (run n) := by
  induction m generalizing s with
  | zero => rw [Nat.zero_add, run_zero, andThen_next]
  | succ m ih =>
    rw [Nat.succ_add, run_succ, run_succ]
    cases step s with
    | next t => simp only [andThen_next, ih]
    | fault f => rfl
    | refused r => rfl

/-- No input is left, or the next one is a command: nothing from outside happens before the top frame is `IDLE`. -/
def Undisturbed (l : List Input) : Prop := ∀ i ∈ l.head?, ∃ w, i = .command w

theorem undisturbed_nil : Undisturbed [] := nofun

theorem undisturbed_command (w : CmdWord) (rest : List Input) : Undisturbed (.command w :: rest) :=
  fun _ hi => ⟨w, (Option.some.inj hi).symm⟩

theorem step_of_undisturbed {s : State} (hl : Undisturbed s.inputs) (hp : s.top.phase ≠ .idle) : step s = micro s := by
  cases hi : s.inputs with
  | nil => exact step_of_no_inputs hi
  | cons i rest =>
    obtain ⟨w, rfl⟩ := hl i (by rw [hi]; rfl)
    exact step_of_command_busy hi hp

/-- The steps that an undisturbed frame still needs are its micro-operations (R106). -/
theorem run_of_microRun {n k : Nat} {s t : State} (hl : Undisturbed s.inputs) (hn : s.top.phase.remaining = n)
    (hk : n ≤ k) (h : microRun k s = .next t) : run n s = .next t := by
  induction n generalizing s k with
  | zero =>
    have hp : s.top.phase = .idle := by
      revert hn
      cases s.top.phase <;> decide
    rwa [microRun_of_idle hp] at h
  | succ n ih =>
    obtain ⟨k, rfl⟩ := Nat.exists_eq_add_of_le' (Nat.one_le_of_lt hk)
    have hp : s.top.phase ≠ .idle := fun hp => by simp [hp, Phase.remaining] at hn
    obtain ⟨u, hm, hrest⟩ := andThen_eq_next.1 (microRun_succ k s ▸ h)
    have hrem := Phase.remaining_of_mem_next hp (microStep_of_micro hm).phase_mem_next
    rw [run_succ, step_of_undisturbed hl hp, hm, andThen_next]
    exact ih ((micro_frame hm).1 ▸ hl) (by omega) (by omega) hrest

/-- A command presented to an `IDLE` frame is run as a whole, its `S_ACCEPT` and the micro-operations that it needs after it,
when nothing from outside comes between (R25, R106). -/
theorem run_command {s t u : State} {i : Instr} {rest : List Input} (hi : s.inputs = .command (encode i) :: rest)
    (hl : Undisturbed rest) (he : exec i (s.setInputs rest) = .next t)
    (hrun : runCommand i (s.setInputs rest) = .next u) : run (t.top.phase.remaining + 1) s = .next u := by
  obtain ⟨hp, -, ht, -⟩ := exec_eq_next he
  rw [runCommand, he, andThen_next] at hrun
  have hinputs : t.inputs = rest := by rw [ht]; rfl
  rw [run_succ, step_of_command_idle hi hp, present_of_decode (decode_encode i), he, andThen_next]
  exact run_of_microRun (hinputs ▸ hl) rfl (Phase.remaining_le_six _) hrun

/-- An accepted SETHCLK takes seven steps (R106, R151). -/
theorem run_sethclk {s : State} {hz : BitVec 32} {q : Divided} {rest : List Input}
    (hi : s.inputs = .command (encode (.sethclk hz)) :: rest) (hl : Undisturbed rest) (hp : s.top.phase = .idle)
    (hs : s.safe = false) (hq : quantize hz = some q) :
    ∃ t, run 7 s = .next t ∧ t.top.phase = .idle ∧ t.safe = false ∧ t.inputs = rest ∧
      t.regs = { s.regs with pllDiv := storedDiv s.cfg q.div, selPll := q.sel } := by
  have hidle : (s.setInputs rest).top.phase = .idle := hp
  exact ⟨_, run_command hi hl (exec_sethclk_of_quantize hidle hs hq) (runCommand_sethclk hidle hs hq), rfl, hs, rfl, rfl⟩

/-- GETHCLK takes three steps (R106, R155). -/
theorem run_gethclk {s : State} {rest : List Input} (hi : s.inputs = .command (encode .gethclk) :: rest)
    (hl : Undisturbed rest) (hp : s.top.phase = .idle) (hs : s.safe = false) :
    ∃ t, run 3 s = .next t ∧ t.top.phase = .idle ∧ t.top.res = some (hclk s) := by
  have hidle : (s.setInputs rest).top.phase = .idle := hp
  exact ⟨_, run_command hi hl (exec_gethclk_of_idle hidle hs) (runCommand_gethclk hidle hs), rfl, rfl⟩

/-! ### Frequencies that read back exactly (43_hclk.md R152, R156, R158) -/

/-- The divider that SETHCLK stores reads back as the reference by the quotient at every legal width: it is stored as it is,
but for 16 in four bits, which is stored as 0 and so reads as 30 MHz, that is 480 MHz / 16 (R156, R158). -/
theorem InRange.hclkHz_stored {hz ref w : Nat} {sel : Bool} (h : InRange hz ref sel) (hw : 4 ≤ w) :
    hclkHz (ref / hz % 2 ^ w) sel = ref / (ref / hz) := by
  have hq := h.quotient
  have hpow : 2 ^ 4 ≤ 2 ^ w := Nat.pow_le_pow_right (by decide) hw
  have href : ref = if sel then fPll else fOsc := h.ref_eq
  by_cases hfit : ref / hz < 2 ^ w
  · have hne : ref / hz ≠ 0 := by omega
    rw [Nat.mod_eq_of_lt hfit, hclkHz, if_neg hne, if_neg hne, ← apply_ite (· / (ref / hz)), ← href]
  · have h16 : ref / hz = 16 := by omega
    have hw16 : 2 ^ w = 16 := by omega
    obtain rfl : sel = true := by
      rcases hq with ⟨hsel, -⟩ | ⟨-, -, hle⟩
      · exact hsel
      · omega
    rw [h16, hw16, h.ref_eq]
    rfl

/-- `DIV_WIDTH` is at least 4 (R6). -/
theorem four_le_divWidth_of_wf {c : Cfg} (h : c.wf = true) : 4 ≤ c.divWidth := by
  have hr := (Cfg.wf_iff.1 h).1
  simp only [Cfg.rangesOk, Bool.and_eq_true, decide_eq_true_eq] at hr
  obtain ⟨⟨⟨-, hlo, -⟩, -⟩, -⟩ := hr
  exact hlo

/-- Every documented frequency is in range and divides its reference (R152). -/
theorem inRange_and_dvd_of_documented : ∀ hz ∈ documentedFrequencies,
    (InRange hz.toNat 480000000 true ∧ hz.toNat ∣ 480000000) ∨
      (InRange hz.toNat 30000000 false ∧ hz.toNat ∣ 30000000) := by
  unfold InRange
  simp only [documentedFrequencies, List.forall_mem_cons]
  refine ⟨?_, ?_, ?_, ?_, ?_, ?_, ?_, ?_, ?_, ?_, ?_, ?_, ?_, nofun⟩ <;> decide

/-- `Hclk()` of the fields that SETHCLK stores for a frequency that divides its reference is that frequency (R158). -/
theorem InRange.hclkOf_storedDiv {c : Cfg} {hz : BitVec 32} {ref : Nat} {sel : Bool} (h : InRange hz.toNat ref sel)
    (hdvd : hz.toNat ∣ ref) (hw : 4 ≤ c.divWidth) :
    hclkOf (storedDiv c (BitVec.ofNat 5 (ref / hz.toNat))) sel = hz := by
  have hq := h.quotient
  have hle := Nat.mod_le (ref / hz.toNat) (2 ^ c.divWidth)
  have hstored : (storedDiv c (BitVec.ofNat 5 (ref / hz.toNat))).toNat = ref / hz.toNat % 2 ^ c.divWidth := by
    rw [storedDiv, h.toNat_div, BitVec.toNat_ofNat, Nat.mod_eq_of_lt (by omega)]
  have href : ref ≠ 0 := by rintro rfl; simp at hq
  rw [hclkOf, hstored, h.hclkHz_stored hw, Nat.div_div_self hdvd href, BitVec.ofNat_toNat, BitVec.setWidth_eq]

/-- Settles O29: the two commands take seven steps and three, and every documented frequency divides its reference. -/
theorem documentedFrequenciesReadBackExactly : Obligations.DocumentedFrequenciesReadBackExactly := by
  intro s hz hdoc hwf hp hs hi
  obtain ⟨ref, sel, hr, hdvd⟩ : ∃ ref sel, InRange hz.toNat ref sel ∧ hz.toNat ∣ ref := by
    rcases inRange_and_dvd_of_documented hz hdoc with h | h
    · exact ⟨_, _, h⟩
    · exact ⟨_, _, h⟩
  obtain ⟨t, ht, htp, hts, hti, htregs⟩ := run_sethclk hi (undisturbed_command _ _) hp hs hr.quantize_eq
  obtain ⟨u, hu, hup, hures⟩ := run_gethclk hti undisturbed_nil htp hts
  have hback : hclk t = hz := by rw [hclk, htregs, hr.hclkOf_storedDiv hdvd (four_le_divWidth_of_wf hwf)]
  refine ⟨u, ?_, hup, by rw [hures, hback]⟩
  rw [run_add 7 3, ht, andThen_next, hu]

end Sys2Proof.Machine

/-! SUPPORT. The environment steps by the head of the inputs, what refuses two of them, what a legal state excludes, and the
proofs of the statements of 60_exceptions.md. -/

namespace Sys2Proof.Machine

/-! ### The environment steps (60_exceptions.md R177, R178; 70_reset_and_hazards.md R190) -/

theorem step_of_preempt {s : State} {e : Bool} {rest : List Input} (hi : s.inputs = .preempt e :: rest) :
    step s = preempt e (s.setInputs rest) := by
  simp [step, nextStep, hi]

theorem step_of_handlerEnd {s : State} {rest : List Input} (hi : s.inputs = .handlerEnd :: rest) :
    step s = handlerReturn (s.setInputs rest) := by
  simp [step, nextStep, hi]

theorem step_of_powerCycle {s : State} {d : ResetDraw} {rest : List Input} (hi : s.inputs = .powerCycle d :: rest) :
    step s = .next (powerOn d (s.setInputs rest)) := by
  simp [step, nextStep, hi]

/-- An interrupt that is not enabled has one refusal (R177). -/
theorem preempt_of_disabled {e : Bool} {s : State} (h : s.ie = false ∨ s.cfg.nCtx ≤ s.depth) :
    preempt e s = .refused .preemptNotEnabled := by
  refine if_neg fun hen => ?_
  obtain ⟨hie, hdepth⟩ := preemptEnabled_iff.1 hen
  rcases h with hoff | hfull
  · simp [hie] at hoff
  · omega

/-- The end of a handler that is not enabled has one refusal (R178). -/
theorem handlerReturn_of_disabled {s : State} (h : s.below = [] ∨ s.top.phase ≠ .idle) :
    handlerReturn s = .refused .returnNotEnabled := by
  cases hb : s.below with
  | nil => simp [handlerReturn, hb]
  | cons f fs =>
    have hbusy : s.top.phase ≠ .idle := h.resolve_left (by simp [hb])
    simp [handlerReturn, hb, hbusy]

/-- Settles O46: neither kind of disabling speaks of the inputs. -/
theorem disabledEnvironmentStepsAreRefused : Obligations.DisabledEnvironmentStepsAreRefused :=
  ⟨fun _ _ _ hi h => (step_of_preempt hi).trans (preempt_of_disabled h),
    fun _ _ hi h => (step_of_handlerEnd hi).trans (handlerReturn_of_disabled h)⟩

/-- Settles O44; where the interrupt is not enabled the step is refused (O46). -/
theorem preemptionPushesAFreshFrame : Obligations.PreemptionPushesAFreshFrame := by
  intro s e rest hi
  constructor
  · intro hie hdepth
    exact (step_of_preempt hi).trans (preempt_eq_next.2 ⟨⟨hie, hdepth⟩, rfl⟩)
  · intro hdis t hst
    rw [disabledEnvironmentStepsAreRefused.1 s e rest hi hdis] at hst
    cases hst

/-- Settles O45; where the handler cannot end the step is refused (O46). -/
theorem handlerReturnPopsTheFrame : Obligations.HandlerReturnPopsTheFrame := by
  intro s rest hi
  constructor
  · intro f fs hb hp
    exact (step_of_handlerEnd hi).trans (handlerReturn_eq_next.2 ⟨hp, f, fs, hb, rfl⟩)
  · intro hdis t hst
    rw [disabledEnvironmentStepsAreRefused.2 s rest hi hdis] at hst
    cases hst

/-! ### No fault from a legal state (60_exceptions.md R170; 10_state.md R21) -/

/-- A command is accepted or refused, whatever the state (R91, R102, R170). -/
theorem exec_ne_fault (i : Instr) (s : State) (f : Fault) : exec i s ≠ .fault f := by
  rw [exec_eq_accept]
  unfold accept
  split
  · simp
  · split <;> simp

theorem present_ne_fault (w : CmdWord) (s : State) (f : Fault) : present w s ≠ .fault f := by
  unfold present
  split
  · exact exec_ne_fault _ s f
  · simp

/-- The micro-operation of a legal state goes on, so it does not fault. -/
theorem Inv.micro_ne_fault {s : State} (h : Inv s) (f : Fault) : micro s ≠ .fault f := by
  obtain ⟨t, ht⟩ := h.micro_enabled
  simp [ht]

/-- No step from a legal state faults: the micro-operations are the only steps that could (R170). -/
theorem Inv.step_ne_fault {s : State} (h : Inv s) (f : Fault) : step s ≠ .fault f := by
  rcases hi : s.inputs with - | ⟨i, rest⟩
  · rw [step_of_no_inputs hi]
    exact h.micro_ne_fault f
  cases i with
  | command w =>
    by_cases hp : s.top.phase = .idle
    · rw [step_of_command_idle hi hp]
      exact present_ne_fault w _ f
    · rw [step_of_command_busy hi hp]
      exact h.micro_ne_fault f
  | advance =>
    rw [step_of_advance hi]
    exact (inv_setInputs rest h).micro_ne_fault f
  | preempt e =>
    rw [step_of_preempt hi]
    exact preempt_ne_fault e _ f
  | handlerEnd =>
    rw [step_of_handlerEnd hi]
    exact handlerReturn_ne_fault _ f
  | powerCycle d => simp [step_of_powerCycle hi]

/-- Settles O52, by induction on the number of steps: the first does not fault, and the rest starts from a legal state. -/
theorem noRunFromALegalStateFaults : Obligations.NoRunFromALegalStateFaults := by
  intro s h n f
  induction n generalizing s with
  | zero => simp
  | succ n ih =>
    rw [run_succ]
    cases hst : step s with
    | next t =>
      rw [andThen_next]
      exact ih t (everyStepKeepsTheStateLegal s t h hst)
    | fault g => exact absurd hst (h.step_ne_fault g)
    | refused r => simp

end Sys2Proof.Machine

/-! SUPPORT. Runs without a power cycle, chains of micro-operations and their accesses, a command that runs in an interrupt
handler, and the proofs of the statements of 70_reset_and_hazards.md. -/

namespace Sys2Proof.Machine

/-! ### Reset and waiting (70_reset_and_hazards.md R190 to R192) -/

/-- Settles O9: at `IDLE` the micro-operation is to wait. -/
theorem idleBlockWithoutInputsWaits : Obligations.IdleBlockWithoutInputsWaits :=
  fun _ hp hi => (step_of_no_inputs hi).trans (micro_of_idle hp)

/-- Settles O54: `powerOn` looks at nothing but the configuration and the inputs. -/
theorem powerCycleResetsTheBlock : Obligations.PowerCycleResetsTheBlock :=
  fun _ _ _ hi => step_of_powerCycle hi

/-! ### Runs without a power cycle (70_reset_and_hazards.md R194, R195) -/

/-- A run without a power cycle ends in a legal state, with the interrupt state that its thread context had (R103, R180). -/
theorem run_inv_threadIe {s t : State} {n : Nat} (hinv : Inv s) (hnp : s.noPower) (h : run n s = .next t) :
    Inv t ∧ t.threadIe = s.threadIe := by
  obtain ⟨ht, -, hie⟩ : Inv t ∧ t.noPower ∧ t.threadIe = s.threadIe := by
    refine run_induction (P := fun u => Inv u ∧ u.noPower ∧ u.threadIe = s.threadIe) ?_ n ⟨hinv, hnp, rfl⟩ h
    rintro u v ⟨hu, hunp, hie⟩ hst
    exact ⟨everyStepKeepsTheStateLegal u v hu hst, step_noPower hunp hst,
      (threadInterruptStateIsKept u v hu (State.noPowerNext_of_noPower hunp) hst).trans hie⟩
  exact ⟨ht, hie⟩

/-- With one `IDLE` frame the thread context runs with `IE` itself. -/
theorem State.threadIe_of_idle_thread {s : State} (hb : s.below = []) (hp : s.top.phase = .idle) :
    s.threadIe = s.ie := by
  rw [State.threadIe_of_outside (by rw [hp]; rfl), if_pos hb]

/-- Settles O58: the run keeps the state legal and the thread's interrupt state, which at both ends is `IE` itself. -/
theorem finishedRunIsLockedWithItsLaunchIe : Obligations.FinishedRunIsLockedWithItsLaunchIe := by
  rintro s t n hinv hb hp hnp hrun ⟨htb, htp, -⟩
  obtain ⟨ht, hie⟩ := run_inv_threadIe hinv hnp hrun
  rw [State.threadIe_of_idle_thread htb htp, State.threadIe_of_idle_thread hb hp] at hie
  exact ⟨ht.safe_of_outside (by rw [htp]; rfl), hie⟩

/-! ### A chain of micro-operations, and its accesses (70_reset_and_hazards.md R204, R206) -/

section
variable {s t : State} {n : Nat} (h : MicroStep s t)
include h

theorem microRun_of_microStep {r : Result State} (hr : microRun n t = r) : microRun (n + 1) s = r := by
  rw [microRun_succ, micro_of_microStep h, andThen_next, hr]

/-- A micro-operation without an access adds none. -/
theorem accessesOf_of_microStep {l : List Access} (ha : accessOf s = none) (hl : accessesOf n t = l) :
    accessesOf (n + 1) s = l := by
  rw [accessesOf, micro_of_microStep h, ha, ← hl]
  rfl

/-- A micro-operation with an access makes it before all later ones. -/
theorem accessesOf_of_microStep_access {a : Access} {l : List Access} (ha : accessOf s = some a)
    (hl : accessesOf n t = l) : accessesOf (n + 1) s = a :: l := by
  rw [accessesOf, micro_of_microStep h, ha, ← hl]
  rfl

end

/-- The `SET` sequence from `READY` to `STORED1`: interrupts off, the block unlocked, and only the divider written (R90,
R96). -/
theorem microRun_set_to_stored1 {s : State} {d : BitVec 5} (hk : s.top.kind = some .set) (hd : s.top.div = some d)
    (hp : s.top.phase = .ready) :
    microRun 3 s = .next { s with
      ie := false
      safe := true
      regs := { s.regs with pllDiv := storedDiv s.cfg d }
      top := { s.top with saved := some s.ie, phase := .stored1 } } := by
  refine
    microRun_of_microStep (.disable hp) <|
    microRun_of_microStep (.enter rfl) <|
    microRun_of_microStep (.writeDiv (d := d) rfl ?_ ?_ ⟨rfl, rfl⟩) rfl
  · exact hk
  · exact hd

/-- Settles O31: `STORED1` is the third phase of the `SET` sequence, and `Hclk()` reads the two fields as they are there. -/
theorem setHclkPassesThroughATransientFrequency : Obligations.SetHclkPassesThroughATransientFrequency :=
  fun _ _ _ hp hs hq =>
    ⟨_, _, exec_sethclk_of_quantize hp hs hq, microRun_set_to_stored1 rfl rfl rfl, rfl, rfl, rfl, rfl⟩

/-- At `OPEN` a SETHCLK writes the divider (R96). -/
theorem accessOf_of_opened_set {s : State} (hp : s.top.phase = .opened) (hk : s.top.kind = some .set) :
    accessOf s = some (.write .pllDiv) := by
  simp [accessOf, hp, hk]

/-- The `GATE` sequence reads its target once and writes it once (R206). -/
theorem accessesOf_gateCommand {s : State} {g : GateReg} {cur : Byte} (f : Frame) (mask : Byte) (off : Bool)
    (hc : s.regs.gate g = some cur) :
    accessesOf 6 (s.setTop (f.gateCommand g mask off)) = [.read (.gate g), .write (.gate g)] := by
  refine
    accessesOf_of_microStep (.disable rfl) rfl <|
    accessesOf_of_microStep (.enter rfl) rfl <|
    accessesOf_of_microStep_access (.read (v := cur) rfl rfl rfl ?_) rfl <|
    accessesOf_of_microStep_access (.write (v := cur) rfl rfl rfl rfl rfl ⟨rfl, rfl⟩ ?_) rfl <|
    accessesOf_of_microStep (.leave rfl) rfl <|
    accessesOf_of_microStep (.restore rfl rfl) rfl rfl
  · exact hc
  · exact hc

/-- The `SET` sequence writes the divider and then the select (R206). -/
theorem accessesOf_set {s : State} {d : BitVec 5} {b : Bool} (hk : s.top.kind = some .set) (hd : s.top.div = some d)
    (hb : s.top.sel = some b) (hp : s.top.phase = .ready) : accessesOf 6 s = [.write .pllDiv, .write .cfgCtrl] := by
  have hready : accessOf s = none := by simp [accessOf, hp]
  refine
    accessesOf_of_microStep (.disable hp) hready <|
    accessesOf_of_microStep (.enter rfl) rfl <|
    accessesOf_of_microStep_access (.writeDiv (d := d) rfl ?_ ?_ ⟨rfl, rfl⟩) (accessOf_of_opened_set rfl ?_) <|
    accessesOf_of_microStep_access (.writeSel (b := b) rfl ?_ ⟨rfl, rfl⟩) rfl <|
    accessesOf_of_microStep (.leave rfl) rfl <|
    accessesOf_of_microStep (.restore rfl rfl) rfl rfl
  · exact hk
  · exact hd
  · exact hk
  · exact hb

/-- The `GET` sequence reads the divider and then the select, and is complete (R206). -/
theorem accessesOf_get {s : State} (hp : s.top.phase = .get0) : accessesOf 6 s = [.read .pllDiv, .read .cfgCtrl] := by
  have hget0 : accessOf s = some (.read .pllDiv) := by simp [accessOf, hp]
  exact
    accessesOf_of_microStep_access (.readDiv hp) hget0 <|
    accessesOf_of_microStep_access (.readSel rfl rfl) rfl <|
    accessesOf_of_idle rfl 4

/-- Settles O40: a command that is accepted into a sequence makes the accesses of that sequence, and one that is complete at
`S_ACCEPT` makes none. -/
theorem accessesOfEachCommand : Obligations.AccessesOfEachCommand := by
  intro s t hinv hp
  have hs : s.safe = false := hinv.safe_of_outside (by rw [hp]; rfl)
  refine ⟨fun mask off he => ?_, fun mask off he => ?_, fun id off r he hr => ?_, fun id off he hr => ?_,
    fun hz q he hq => ?_, fun hz he hq => ?_, fun he => ?_⟩
  · obtain rfl := next_inj.1 ((exec_gate0_of_idle mask off hp hs).symm.trans he)
    exact accessesOf_gateCommand _ mask off rfl
  · obtain rfl := next_inj.1 ((exec_gate1_of_idle mask off hp hs).symm.trans he)
    exact accessesOf_gateCommand _ mask off rfl
  · obtain ⟨cur, hc⟩ := hinv.gate_some (resolve_wake hr)
    rw [exec_gateid_of_idle id off hp hs, hr] at he
    obtain rfl := next_inj.1 he
    exact accessesOf_gateCommand _ _ off hc
  · exact ((gateIdWithoutABindingOnlyAnswersZero id off s hp hs hr).2 t he).2
  · obtain rfl := next_inj.1 ((exec_sethclk_of_quantize hp hs hq).symm.trans he)
    exact accessesOf_set rfl rfl rfl rfl
  · rw [exec_sethclk_of_idle hz hp hs, hq] at he
    obtain rfl := next_inj.1 he
    exact accessesOf_of_idle rfl 6
  · obtain rfl := next_inj.1 ((exec_gethclk_of_idle hp hs).symm.trans he)
    exact accessesOf_get rfl

/-! ### A command that runs in an interrupt handler (60_exceptions.md R177, R178; 70_reset_and_hazards.md R199) -/

/-- Micro-operations use up no input and touch no suspended frame (R23). -/
theorem microRun_frame (n : Nat) {s t : State} (h : microRun n s = .next t) :
    t.inputs = s.inputs ∧ t.below = s.below := by
  induction n generalizing s with
  | zero => rw [next_inj.1 h]; exact ⟨rfl, rfl⟩
  | succ n ih =>
    obtain ⟨u, hm, hrest⟩ := andThen_eq_next.1 (microRun_succ n s ▸ h)
    obtain ⟨hinputs, -, hbelow⟩ := micro_frame hm
    rw [← hinputs, ← hbelow]
    exact ih hrest

/-- A whole command uses up no input and touches no suspended frame. -/
theorem runCommand_frame {i : Instr} {s t : State} (h : runCommand i s = .next t) :
    t.inputs = s.inputs ∧ t.below = s.below := by
  obtain ⟨u, he, hrest⟩ := andThen_eq_next.1 h
  obtain ⟨-, -, hu, -⟩ := exec_eq_next he
  have hframe := microRun_frame 6 hrest
  rwa [hu] at hframe

/-- While the environment lets the top frame go on, its steps are its micro-operations (R106). -/
theorem run_of_advances (n : Nat) {s t : State} {rest : List Input}
    (hi : s.inputs = List.replicate n .advance ++ rest) (h : microRun n (s.setInputs rest) = .next t) :
    run n s = .next t := by
  induction n generalizing s with
  | zero =>
    obtain rfl : s.inputs = rest := hi
    exact h
  | succ n ih =>
    obtain ⟨u, hm, hrest⟩ := andThen_eq_next.1 (microRun_succ n (s.setInputs rest) ▸ h)
    obtain rfl : u.inputs = rest := (micro_frame hm).1
    let l : List Input := List.replicate n .advance ++ u.inputs
    have hstep : MicroStep (s.setInputs l) (u.setInputs l) := (microStep_of_micro hm).setInputs l
    rw [run_succ, step_of_advance (rest := l) hi, micro_of_microStep hstep, andThen_next]
    exact ih rfl hrest

/-- A command presented to an `IDLE` frame that is then let go on six times is run as a whole (R25, R106). -/
theorem run_command_of_advances {i : Instr} {s t : State} {rest : List Input}
    (hi : s.inputs = .command (encode i) :: (List.replicate 6 .advance ++ rest))
    (h : runCommand i (s.setInputs rest) = .next t) : run 7 s = .next t := by
  obtain ⟨u, he, hrest⟩ := andThen_eq_next.1 h
  obtain ⟨hp, -, hu, -⟩ := exec_eq_next he
  have hexec := acceptTouchesOnlyTheIssuingFrame.2.2 i (s.setInputs rest)
    (s.setInputs (List.replicate 6 .advance ++ rest)) u rfl rfl rfl he
  rw [run_succ, stepRunsTheDecodedCommand s _ _ i hi hp (decode_encode i), hexec, andThen_next]
  rw [hu] at hrest
  exact run_of_advances 6 rfl hrest

/-- One more step at the end of a run. -/
theorem run_step {n : Nat} {s u t : State} (h : run n s = .next u) (hst : step u = .next t) :
    run (n + 1) s = .next t := by
  rw [run_add n 1, h, andThen_next, run_succ, hst, andThen_next, run_zero]

/-- The state that taking an interrupt leads to (R177). -/
def State.handler (s : State) (e : Bool) : State := { s with ie := e, top := Frame.fresh, below := s.top :: s.below }

theorem step_of_preempt_enabled {s : State} {e : Bool} {rest : List Input} (hi : s.inputs = .preempt e :: rest)
    (hie : s.ie = true) (hdepth : s.depth < s.cfg.nCtx) : step s = .next ((s.handler e).setInputs rest) :=
  (preemptionPushesAFreshFrame s e rest hi).1 hie hdepth

/-- A handler that runs one command and ends: the command does what it does in the handler's frame, and the interrupted frame
is the top again as it was, with `IE = 1` (R177, R178). -/
theorem run_handler_command {i : Instr} {e : Bool} {s t : State} {rest : List Input}
    (hi : s.inputs = .preempt e :: .command (encode i) :: (List.replicate 6 .advance ++ .handlerEnd :: rest))
    (hie : s.ie = true) (hdepth : s.depth < s.cfg.nCtx)
    (h : runCommand i ((s.handler e).setInputs (.handlerEnd :: rest)) = .next t) (hp : t.top.phase = .idle) :
    run 9 s = .next { t with ie := true, top := s.top, below := s.below, inputs := rest } := by
  obtain ⟨hti, htb⟩ := runCommand_frame h
  have hended := (handlerReturnPopsTheFrame t rest hti).1 s.top s.below htb hp
  have hcommand : run 8 s = .next t := by
    rw [run_succ, step_of_preempt_enabled hi hie hdepth, andThen_next]
    exact run_command_of_advances rfl h
  exact run_step hcommand hended

/-- Settles O30: the nine steps of the handler leave the interrupted frame at `GET1` with its old divider, and `S_RDSEL` reads
the select that the handler's SETHCLK wrote. -/
theorem preemptedGetHclkMayBeTorn : Obligations.PreemptedGetHclkMayBeTorn := by
  intro s hz q d e hp hd hs hie hdepth hq hi
  have hset := runCommand_sethclk (s := (s.handler e).setInputs [.handlerEnd, .advance]) rfl hs hq
  have hhandler := run_handler_command hi hie hdepth hset rfl
  refine ⟨_, run_step hhandler ((step_of_advance rfl).trans (micro_of_microStep (.readSel (d := d) ?_ ?_))),
    rfl, rfl, rfl, rfl⟩
  · exact hp
  · exact hd

end Sys2Proof.Machine

/-! SUPPORT. The register block after reset with zero draws, and the proof of the statement about the named reset state
(10_state.md section 6; 95_test_vectors.md section 1). -/

namespace Sys2Proof.Machine

/-- Zero draws leave a zero register block on a chip without `WAKE`, whatever its `DIV_WIDTH` is (R31, R38). -/
theorem RegBlock.reset_zero {c : Cfg} (hw : c.hasWake = false) :
    RegBlock.reset c ResetDraw.zero = ⟨0, 0, none, 0, false⟩ := by
  simp [RegBlock.reset, ResetDraw.zero, hw]

/-- Settles O55: `T0cfg(VA)` has no `WAKE`, and the other fields are those after any reset with zero draws. -/
theorem namedResetStateHasZeroRegisters : Obligations.NamedResetStateHasZeroRegisters :=
  ⟨rfl, RegBlock.reset_zero (c := t0cfg .va) rfl, rfl, rfl, rfl, rfl, rfl⟩

end Sys2Proof.Machine
